-- ==== Sys2Proof/Word.lean ====
section
/-! DEFINITION. The one word type of the hardware: every register, address, immediate, opcode and memory cell is an
unsigned byte, and `+`, `-`, `*` on it are arithmetic modulo 256 (spec/00_scope.md R17). -/

namespace Sys2Proof

/-- An unsigned 8-bit value (R17). Bit 0 is the least significant bit (R16). -/
abbrev Byte := BitVec 8

end Sys2Proof
end

