-- ==== Sys2Proof/Syntax.lean ====
section
/-! DEFINITION. The 13 instructions of spec/opcode_table.json, in the table's order, one constructor each, and the four
formats of spec/30_encoding.md R72. -/

namespace Sys2Proof

/-- An instruction: its mnemonic and the operand BYTES its format uses. A register operand is the whole operand byte
(R73), so a byte of 8 or more can stand here; `Instr.wf` says when none does, and the meanings take the IllegalRegister
fault where one does (R103). -/
inductive Instr where
  /-- LDI, R120: `a` the destination register, `imm` the immediate. -/
  | ldi (a imm : Byte)
  /-- PRN, R121: `a` the register printed. -/
  | prn (a : Byte)
  /-- HLT, R122. -/
  | hlt
  /-- MUL, R142: `a` the destination and first source, `b` the second source. -/
  | mul (a b : Byte)
  /-- ADD, R143: `a` the destination and first source, `b` the second source. -/
  | add (a b : Byte)
  /-- PUSH, R160: `a` the register pushed. -/
  | push (a : Byte)
  /-- POP, R161: `a` the destination register. -/
  | pop (a : Byte)
  /-- CALL, R180: `a` the register that holds the target. -/
  | call (a : Byte)
  /-- RET, R181. -/
  | ret
  /-- CMP, R144: `a` and `b` the registers compared. -/
  | cmp (a b : Byte)
  /-- JMP, R182: `a` the register that holds the target. -/
  | jmp (a : Byte)
  /-- JEQ, R183: `a` the register that holds the target. -/
  | jeq (a : Byte)
  /-- JNE, R184: `a` the register that holds the target. -/
  | jne (a : Byte)
deriving DecidableEq, Repr

/-- The four instruction formats (R72). -/
inductive Format where
  /-- The opcode alone. -/
  | f0
  /-- The opcode and a register index. -/
  | f1r
  /-- The opcode, a register index and an immediate byte. -/
  | f2ri
  /-- The opcode and two register indices. -/
  | f2rr
deriving DecidableEq, Repr

/-- The format of each instruction (R72). -/
def Instr.format : Instr → Format
  | .ldi _ _ => .f2ri
  | .prn _ => .f1r
  | .hlt => .f0
  | .mul _ _ => .f2rr
  | .add _ _ => .f2rr
  | .push _ => .f1r
  | .pop _ => .f1r
  | .call _ => .f1r
  | .ret => .f0
  | .cmp _ _ => .f2rr
  | .jmp _ => .f1r
  | .jeq _ => .f1r
  | .jne _ => .f1r

/-- The length in bytes of an instruction of each format (R72). -/
def Format.length : Format → Nat
  | .f0 => 1
  | .f1r => 2
  | .f2ri => 3
  | .f2rr => 3

end Sys2Proof
end

