-- ==== Sys2Proof/WellFormed.lean ====
section
/-! DEFINITION. When an instruction is well formed: every register field of its format names one of the 8 registers
(spec/30_encoding.md R73, spec/40_controller.md R103). -/

namespace Sys2Proof

/-- The byte names a register: 0 to 7 do, 8 to 255 do not (R73). -/
def isReg (b : Byte) : Bool := decide (b.toNat < 8)

/-- The register fields of an instruction, A before B (R73). LDI's B is an immediate and HLT and RET have none. -/
def Instr.regFields : Instr → List Byte
  | .ldi a _ => [a]
  | .prn a => [a]
  | .hlt => []
  | .mul a b => [a, b]
  | .add a b => [a, b]
  | .push a => [a]
  | .pop a => [a]
  | .call a => [a]
  | .ret => []
  | .cmp a b => [a, b]
  | .jmp a => [a]
  | .jeq a => [a]
  | .jne a => [a]

/-- Well formed: no register field is 8 or more (R103). -/
def Instr.wf (i : Instr) : Bool := i.regFields.all isReg

end Sys2Proof
end

