-- ==== Sys2Proof/Decode.lean ====
section
/-! DEFINITION. The opcode map of spec/30_encoding.md R76, the fields of an opcode byte (R71), the decoder (R102) and the
encoder. The opcode byte values are the spec's decision D1, from general knowledge (log 1). -/

namespace Sys2Proof

namespace Opcode

/-- LDI (R76). -/
def ldi : Byte := 0x82
/-- PRN (R76). -/
def prn : Byte := 0x47
/-- HLT (R76). -/
def hlt : Byte := 0x01
/-- MUL (R76). -/
def mul : Byte := 0xA2
/-- ADD (R76). -/
def add : Byte := 0xA0
/-- PUSH (R76). -/
def push : Byte := 0x45
/-- POP (R76). -/
def pop : Byte := 0x46
/-- CALL (R76). -/
def call : Byte := 0x50
/-- RET (R76). -/
def ret : Byte := 0x11
/-- CMP (R76). -/
def cmp : Byte := 0xA7
/-- JMP (R76). -/
def jmp : Byte := 0x54
/-- JEQ (R76). -/
def jeq : Byte := 0x55
/-- JNE (R76). -/
def jne : Byte := 0x56

/-- The 13 legal opcodes, in the table's order (R76). -/
def legal : List Byte := [ldi, prn, hlt, mul, add, push, pop, call, ret, cmp, jmp, jeq, jne]

/-- `N`, opcode bits 7..6: how many operand bytes the instruction uses (R71). -/
def operandCount (op : Byte) : Byte := op >>> 6

/-- `P`, opcode bit 4: the instruction sets `pc` itself (R71). -/
def setsPc (op : Byte) : Bool := op.getLsbD 4

end Opcode

/-- Why the decoder refuses. -/
inductive DecodeError where
  /-- The opcode byte is not one of the 13 (R77, R102). -/
  | illegalOpcode (op : Byte)
deriving DecidableEq, Repr

/-- The decoder: the instruction the three fetched bytes hold, selected by the WHOLE opcode byte (R71, R102). The operand
bytes the format does not use are dropped (R75). It checks no register field: that is a later stage of the step (R103). -/
def decode (op a b : Byte) : Except DecodeError Instr :=
  if op = Opcode.ldi then .ok (.ldi a b)
  else if op = Opcode.prn then .ok (.prn a)
  else if op = Opcode.hlt then .ok .hlt
  else if op = Opcode.mul then .ok (.mul a b)
  else if op = Opcode.add then .ok (.add a b)
  else if op = Opcode.push then .ok (.push a)
  else if op = Opcode.pop then .ok (.pop a)
  else if op = Opcode.call then .ok (.call a)
  else if op = Opcode.ret then .ok .ret
  else if op = Opcode.cmp then .ok (.cmp a b)
  else if op = Opcode.jmp then .ok (.jmp a)
  else if op = Opcode.jeq then .ok (.jeq a)
  else if op = Opcode.jne then .ok (.jne a)
  else .error (.illegalOpcode op)

/-- The opcode byte of an instruction (R76). -/
def Instr.opcode : Instr → Byte
  | .ldi _ _ => Opcode.ldi
  | .prn _ => Opcode.prn
  | .hlt => Opcode.hlt
  | .mul _ _ => Opcode.mul
  | .add _ _ => Opcode.add
  | .push _ => Opcode.push
  | .pop _ => Opcode.pop
  | .call _ => Opcode.call
  | .ret => Opcode.ret
  | .cmp _ _ => Opcode.cmp
  | .jmp _ => Opcode.jmp
  | .jeq _ => Opcode.jeq
  | .jne _ => Opcode.jne

/-- The encoder: the bytes of an instruction in address order, opcode first, then operand A, then operand B (R70, R72,
R76). -/
def encode : Instr → List Byte
  | .ldi a imm => [Opcode.ldi, a, imm]
  | .prn a => [Opcode.prn, a]
  | .hlt => [Opcode.hlt]
  | .mul a b => [Opcode.mul, a, b]
  | .add a b => [Opcode.add, a, b]
  | .push a => [Opcode.push, a]
  | .pop a => [Opcode.pop, a]
  | .call a => [Opcode.call, a]
  | .ret => [Opcode.ret]
  | .cmp a b => [Opcode.cmp, a, b]
  | .jmp a => [Opcode.jmp, a]
  | .jeq a => [Opcode.jeq, a]
  | .jne a => [Opcode.jne, a]

/-- Byte `k` of an instruction whose bits are the number `w`, first byte least significant, the bits from `nbits` on
being 0: how the words of spec/opcode_table.json are laid out in memory. -/
def tableByte (nbits w k : Nat) : Byte := BitVec.ofNat 8 (w % 2 ^ nbits / 256 ^ k)

/-- What the decoder reads from an instruction given as a number (see `tableByte`). -/
def decodeTableWord (nbits w : Nat) : Option Instr :=
  (decode (tableByte nbits w 0) (tableByte nbits w 1) (tableByte nbits w 2)).toOption

end Sys2Proof
end

