-- ==== Sys2Proof/Config.lean ====
section
/-! DEFINITION. The implementation parameters of spec/00_scope.md R15. None is left open, and the spec has no free value
(spec/40_controller.md R108), so there is no opaque constant here. The 13 opcode bytes, also parameters of R15, stand in
Sys2Proof/Decode.lean; `NREG` = 8 stands in the type `Reg` and `MEMSIZE` = 256 in the 8 bits of an address. -/

namespace Sys2Proof.Config

/-- `SP_RESET`: what `R7` holds after reset (R15, R34). -/
def spReset : Byte := 0xF4

/-- `ENTRY`: the program entry address (R15, R231). -/
def entry : Byte := 0x00

/-- What every memory cell holds after reset (R34: "zeroed at initialization"), so what an unlisted cell reads as. -/
def memReset : Byte := 0x00

/-- The value the model gives `IR`, `OPA` and `OPB` at reset. DESIGN CHOICE, log 2: the spec gives none (R34: "no value;
not read before written"). -/
def latchReset : Byte := 0x00

end Sys2Proof.Config
end

