-- ==== Sys2Proof/Machine/State.lean ====
section
/-! DEFINITION. The machine's state (spec/10_state.md R20 to R33), its value at reset (R34), and the reasons a step of the
model can stop. -/

namespace Sys2Proof.Machine

/-- A register of the file: `R0` to `R7` (R20). -/
abbrev Reg := Fin 8

/-- The run state of the block (R28). -/
inductive RunState where
  /-- After reset: the loader fills memory, the controller takes no step. -/
  | idle
  /-- The controller steps. -/
  | running
  /-- HLT was executed. Only reset leaves it. -/
  | halted
  /-- A fault was raised. Only reset leaves it. -/
  | faulted
deriving DecidableEq, Repr

/-- The three faults of the block (R200). ALL are raised through `State.raise`, and raising one is a NEXT state, with the
run state FAULTED and the fault record written, as R201 says: no step and no meaning of this model answers
`Outcome.fault` (log 5). -/
inductive Fault where
  /-- The fetched opcode is not one of the 13. Raised by `step` when the decoder refuses (R102). Safe: it is what the spec
  says happens, and the machine stands still afterwards. -/
  | illegalInstruction
  /-- The ALU was given a selector other than ADD or MUL. Raised by `runAlu` (R141); no instruction gives such a selector,
  so it cannot occur. Safe. -/
  | unimplementedAluOp
  /-- A register operand byte is 8 or more. Raised by the register check of every meaning whose format has a register
  field (R103). Safe where the hardware traps; the spec's decision D3. -/
  | illegalRegister
deriving DecidableEq, Repr

/-- Reasons the model gives no meaning. -/
inductive Refusal where
  /-- An instruction rejected by name in `exec`. No arm of `exec` uses it: every instruction has its meaning. Safe: it
  stops, so nothing can be proved about what follows. -/
  | notModelled (mnemonic : String)
deriving DecidableEq, Repr

/-- The memory array as (address, byte) pairs: addresses strictly rising, no entry equal to the reset byte (see
`Memory.wf` in Machine/Ops.lean). A cell that is not listed holds the reset byte 0x00 (R34). -/
abbrev Memory := List Host.Cell

/-- Everything the spec gives the machine (R20 to R33). -/
structure State where
  /-- `R0` to `R7`; `R7` is `SP` (R20, R21). -/
  regs : Vector Byte 8
  /-- The program counter (R25). -/
  pc : Byte
  /-- The flags register `0b00000LGE` (R26). -/
  fl : Byte
  /-- Memory, for code and stack (R32, R50). -/
  mem : Memory
  /-- The run state (R28). -/
  runState : RunState
  /-- `FAULT_CODE` (R29; two bits, R35). -/
  faultCode : BitVec 2
  /-- `FAULT_ADDR` (R29). -/
  faultAddr : Byte
  /-- `FAULT_OP` (R29). -/
  faultOp : Byte
  /-- The opcode latch `IR` (R30). -/
  ir : Byte
  /-- The operand A latch `OPA` (R30). -/
  opa : Byte
  /-- The operand B latch `OPB` (R30). -/
  opb : Byte
  /-- The bytes emitted since reset, oldest first (R31, log 7). -/
  output : List Byte
deriving DecidableEq, Repr

/-- The machine right after reset (R34, R230). The latches' value is the model's own (log 2). -/
def State.reset : State where
  regs := #v[0x00, 0x00, 0x00, 0x00, 0x00, 0x00, 0x00, Config.spReset]
  pc := Config.entry
  fl := 0x00
  mem := []
  runState := .idle
  faultCode := 0
  faultAddr := 0x00
  faultOp := 0x00
  ir := Config.latchReset
  opa := Config.latchReset
  opb := Config.latchReset
  output := []

end Sys2Proof.Machine
end

