-- ==== Sys2Proof/Machine/Ops.lean ====
section
/-! DEFINITION. The named operations over registers, memory, stack and output that the meanings are written with, the
fetch, the end of a step, and TAKING A FAULT (`State.raise`). There is no return from a fault beside it, because the block
has none: only reset leaves FAULTED (spec/60_exceptions.md R203). -/

namespace Sys2Proof.Machine

/-- What a meaning and a step answer. -/
abbrev Result := Host.Outcome State Fault Refusal

/-! ### Memory (spec/20_memory.md) -/

/-- The canonical form: addresses strictly rising and inside the array, no entry equal to what an unlisted cell holds. -/
abbrev Memory.wf (m : Memory) : Prop :=
  m.Pairwise (fun x y => x.1 < y.1) ∧ ∀ c ∈ m, c.1 < 256 ∧ c.2 ≠ Config.memReset

/-- `M[a]`: the first entry listed under `a`, else the reset byte (R51; reset contents R34). -/
def Memory.read (m : Memory) (a : Byte) : Byte :=
  match m with
  | [] => Config.memReset
  | c :: rest => if c.1 = a.toNat then c.2 else Memory.read rest a

/-- Put an entry before the first one with a greater address. -/
def Memory.insert (c : Host.Cell) (m : Memory) : Memory :=
  match m with
  | [] => [c]
  | d :: rest => if c.1 < d.1 then c :: d :: rest else d :: Memory.insert c rest

/-- `M[a] <- v` (R52), in canonical form: the cell's old entry goes, and a new one is listed unless `v` is what an
unlisted cell holds. -/
def Memory.write (m : Memory) (a v : Byte) : Memory :=
  let others := m.filter (fun c => c.1 != a.toNat)
  if v = Config.memReset then others else Memory.insert (a.toNat, v) others

/-- `MemRead(a, 1)` (R51). It changes nothing and never fails. -/
def State.memRead (s : State) (a : Byte) : Byte := s.mem.read a

/-- `MemWrite(a, 1, v)` (R52). It changes one cell and never fails. -/
def State.memWrite (s : State) (a v : Byte) : State := { s with mem := s.mem.write a v }

/-! ### Registers, program counter and output (spec/10_state.md) -/

/-- `SP` is register 7 (R21). -/
abbrev sp : Reg := 7

/-- `x[r]` (R20). No register is hardwired (R22). -/
def State.reg (s : State) (r : Reg) : Byte := s.regs[r.val]

/-- `x[r] <- v` (R20). -/
def State.setReg (s : State) (r : Reg) (v : Byte) : State := { s with regs := s.regs.set r.val v }

/-- `pc <- target` (R25). -/
def State.setPc (s : State) (target : Byte) : State := { s with pc := target }

/-- `state <- S` (R28). -/
def State.setRunState (s : State) (r : RunState) : State := { s with runState := r }

/-- `Emit(v)`: one transfer on the output port, which the host always accepts (R36, R121). -/
def State.emit (s : State) (v : Byte) : State := { s with output := s.output ++ [v] }

/-! ### Stack (spec/20_memory.md) -/

/-- `Push(v)`: decrement `SP`, then write (R54). No bounds check (R57). -/
def State.push (s : State) (v : Byte) : State :=
  let t := s.setReg sp (s.reg sp - 1)
  t.memWrite (t.reg sp) v

/-- `Pop()`: the byte read at `SP`, and the state with `SP` incremented (R55). No bounds check (R57). -/
def State.pop (s : State) : Byte × State :=
  (s.memRead (s.reg sp), s.setReg sp (s.reg sp + 1))

/-! ### Faults (spec/60_exceptions.md) -/

/-- The code of a fault (R200). -/
def Fault.code : Fault → BitVec 2
  | .illegalInstruction => 1
  | .unimplementedAluOp => 2
  | .illegalRegister => 3

/-- `raise F(addr, op)`: enter FAULTED and write the fault record; nothing else changes (R201). -/
def State.raise (s : State) (f : Fault) (addr op : Byte) : State :=
  { s with runState := .faulted, faultCode := f.code, faultAddr := addr, faultOp := op }

/-! ### The step's own parts (spec/40_controller.md) -/

/-- Fetch: the opcode and the two bytes after it, latched before anything is written (R101). -/
def State.fetch (s : State) : State :=
  { s with ir := s.memRead s.pc, opa := s.memRead (s.pc + 1), opb := s.memRead (s.pc + 2) }

/-- The program counter after the handler of the instruction with opcode `op` at address `a`: with `P = 0` the controller
advances it by `1 + N` from `a` (R105), with `P = 1` it stays as the handler set it (R106). -/
def State.advance (s : State) (op a : Byte) : State :=
  if Opcode.setsPc op then s else s.setPc (a + (1 + Opcode.operandCount op))

/-- The end of an instruction that completed: `t` is the state its handler left, `s` the state the step started from. -/
def complete (op : Byte) (s t : State) : Result := .next (t.advance op s.pc)

/-- Store the three bytes at `a`, `a + 1`, `a + 2`, wrapping at the end of memory (R53, R59). -/
def State.storeBytes (s : State) (a b0 b1 b2 : Byte) : State :=
  ((s.memWrite a b0).memWrite (a + 1) b1).memWrite (a + 2) b2

end Sys2Proof.Machine
end

