-- ==== Sys2Proof/Machine/Flags.lean ====
section
/-! DEFINITION. The flags register `FL = 0b00000LGE` (spec/10_state.md R26, R27) and the one flag computation of the
instruction set, CMP's (spec/42_alu.md R144). -/

namespace Sys2Proof.Machine

/-- `FL.E`, bit 0 (R26). -/
def State.flagE (s : State) : Bool := s.fl.getLsbD 0

/-- `FL.G`, bit 1 (R26). -/
def State.flagG (s : State) : Bool := s.fl.getLsbD 1

/-- `FL.L`, bit 2 (R26). -/
def State.flagL (s : State) : Bool := s.fl.getLsbD 2

/-- The byte CMP writes: bits 7..3 zero, then `va < vb`, `va > vb`, `va = vb`, compared unsigned (R144). -/
def compareFlags (va vb : Byte) : Byte :=
  (0 : BitVec 5) ++ BitVec.ofBool (decide (va < vb)) ++ BitVec.ofBool (decide (va > vb)) ++ BitVec.ofBool (decide (va = vb))

/-- `FL <- v`, all eight bits (R27). -/
def State.setFl (s : State) (v : Byte) : State := { s with fl := v }

end Sys2Proof.Machine
end

