-- ==== Sys2Proof/Machine/Operands.lean ====
section
/-! DEFINITION. Every operand form of the instruction set: a register operand with its check (spec/30_encoding.md R73,
spec/40_controller.md R103) and LDI's immediate (R74). -/

namespace Sys2Proof.Machine

/-- The register a register operand byte names: 0 to 7 name one, 8 to 255 name none (R73). -/
def regOf (b : Byte) : Option Reg :=
  if h : b.toNat < 8 then some ⟨b.toNat, h⟩ else none

/-- The value of LDI's immediate operand: the whole byte, as it is (R74). -/
def immediate (b : Byte) : Byte := b

/-- The register check of one operand byte `f` of the instruction with opcode `op`: go on with the register it names, or
raise IllegalRegister at the instruction's address and change nothing else (R103, R201). -/
def withReg (op f : Byte) (s : State) (k : Reg → Result) : Result :=
  match regOf f with
  | some r => k r
  | none => .next (s.raise .illegalRegister s.pc op)

/-- The register checks of a format with two register fields, A first and then B (R103, R204). -/
def withRegs (op a b : Byte) (s : State) (k : Reg → Reg → Result) : Result :=
  withReg op a s fun ra => withReg op b s fun rb => k ra rb

end Sys2Proof.Machine
end

