-- ==== Sys2Proof/Machine/Alu.lean ====
section
/-! DEFINITION. The ALU, MUL, ADD and CMP (spec/42_alu.md). -/

namespace Sys2Proof.Machine

/-- The ALU's operation selector: its two legal values, and any other (R140, R141). -/
inductive AluOp where
  /-- Addition modulo 256. -/
  | add
  /-- The low byte of the product. -/
  | mul
  /-- A selector that is neither: the ALU raises UnimplementedAluOp (R141). No instruction uses one (log 9). -/
  | other (selector : Byte)
deriving DecidableEq, Repr

/-- The ALU's result on two bytes, truncated to a byte (R140, R145); none for an unimplemented selector (R141). -/
def aluResult (sel : AluOp) (va vb : Byte) : Option Byte :=
  match sel with
  | .add => some (va + vb)
  | .mul => some (va * vb)
  | .other _ => none

/-- The ALU driven by the instruction with opcode `op`: both inputs are read, then the result is written to `x[ra]` and
to nothing else (R140); an unimplemented selector raises its fault before any write (R141). -/
def runAlu (op : Byte) (sel : AluOp) (ra rb : Reg) (s : State) : Result :=
  match aluResult sel (s.reg ra) (s.reg rb) with
  | some v => complete op s (s.setReg ra v)
  | none => .next (s.raise .unimplementedAluOp s.pc op)

/-- MUL (R142): `x[A] <- (x[A] * x[B]) mod 256`; no flag. -/
def execMul (a b : Byte) (s : State) : Result :=
  withRegs Opcode.mul a b s fun ra rb => runAlu Opcode.mul .mul ra rb s

/-- ADD (R143): `x[A] <- (x[A] + x[B]) mod 256`; no flag. Addition, not the multiplication of the repository's defective
program (spec/90_conflicts.md C1). -/
def execAdd (a b : Byte) (s : State) : Result :=
  withRegs Opcode.add a b s fun ra rb => runAlu Opcode.add .add ra rb s

/-- CMP (R144): write all of `FL` from an unsigned comparison; no register is written. -/
def execCmp (a b : Byte) (s : State) : Result :=
  withRegs Opcode.cmp a b s fun ra rb => complete Opcode.cmp s (s.setFl (compareFlags (s.reg ra) (s.reg rb)))

end Sys2Proof.Machine
end

