-- ==== Sys2Proof/Machine/ControlFlow.lean ====
section
/-! DEFINITION. CALL, RET, JMP, JEQ and JNE (spec/44_control_flow.md). Each writes `pc` on every path, and the controller
does not advance it after them (spec/40_controller.md R106). -/

namespace Sys2Proof.Machine

/-- CALL (R180): push the address of the byte after the CALL, then jump to `x[A]`, READ AFTER the push (decision D10), so
`CALL R7` jumps to the new `SP`. -/
def execCall (a : Byte) (s : State) : Result :=
  withReg Opcode.call a s fun ra =>
    let t := s.push (s.pc + 2)
    complete Opcode.call s (t.setPc (t.reg ra))

/-- RET (R181): jump to the popped byte. -/
def execRet (s : State) : Result :=
  complete Opcode.ret s (s.pop.2.setPc s.pop.1)

/-- JMP (R182). -/
def execJmp (a : Byte) (s : State) : Result :=
  withReg Opcode.jmp a s fun ra => complete Opcode.jmp s (s.setPc (s.reg ra))

/-- `pc <- x[A]` if the condition holds, else the address of the next instruction (R183, R184; spec/90_conflicts.md
C6). -/
def State.branch (s : State) (taken : Bool) (r : Reg) : State :=
  s.setPc (if taken then s.reg r else s.pc + 2)

/-- JEQ (R183): jump if `E = 1`. -/
def execJeq (a : Byte) (s : State) : Result :=
  withReg Opcode.jeq a s fun ra => complete Opcode.jeq s (s.branch s.flagE ra)

/-- JNE (R184): jump if `E = 0`. -/
def execJne (a : Byte) (s : State) : Result :=
  withReg Opcode.jne a s fun ra => complete Opcode.jne s (s.branch (!s.flagE) ra)

end Sys2Proof.Machine
end

