-- ==== Sys2Proof/Machine/LoadOutputHalt.lean ====
section
/-! DEFINITION. LDI, PRN and HLT (spec/41_load_output_halt.md). -/

namespace Sys2Proof.Machine

/-- LDI (R120): `x[A] <- B`. B is not checked. -/
def execLdi (a imm : Byte) (s : State) : Result :=
  withReg Opcode.ldi a s fun ra => complete Opcode.ldi s (s.setReg ra (immediate imm))

/-- PRN (R121): emit `x[A]`. -/
def execPrn (a : Byte) (s : State) : Result :=
  withReg Opcode.prn a s fun ra => complete Opcode.prn s (s.emit (s.reg ra))

/-- HLT (R122): enter HALTED; `pc` still advances past the HLT (R105, decision D8). -/
def execHlt (s : State) : Result :=
  complete Opcode.hlt s (s.setRunState .halted)

end Sys2Proof.Machine
end

