-- ==== Sys2Proof/Machine/Stack.lean ====
section
/-! DEFINITION. PUSH and POP (spec/43_stack.md). -/

namespace Sys2Proof.Machine

/-- PUSH (R160): the register is read before `SP` changes, so `PUSH R7` pushes the old `SP`. -/
def execPush (a : Byte) (s : State) : Result :=
  withReg Opcode.push a s fun ra => complete Opcode.push s (s.push (s.reg ra))

/-- POP (R161): the register is written after `SP` is incremented, so `POP R7` leaves the popped byte in `SP`. -/
def execPop (a : Byte) (s : State) : Result :=
  withReg Opcode.pop a s fun ra => complete Opcode.pop s (s.pop.2.setReg ra s.pop.1)

end Sys2Proof.Machine
end

