-- ==== Sys2Proof/Machine/Step.lean ====
section
/-! DEFINITION. One step of the controller (spec/40_controller.md R100, R109). -/

namespace Sys2Proof.Machine

/-- One step (R109): while RUNNING, fetch three bytes, decode, and run the instruction, or raise IllegalInstruction where
the opcode is none of the 13 (R102). In IDLE, HALTED and FAULTED the controller takes no step and changes nothing (R100):
the same state is the next one (log 4). -/
def step (s : State) : Host.Outcome State Fault Refusal :=
  match s.runState with
  | .running =>
    let f := s.fetch
    match decode f.ir f.opa f.opb with
    | .ok i => exec i f
    | .error _ => .next (f.raise .illegalInstruction f.pc f.ir)
  | .idle => .next s
  | .halted => .next s
  | .faulted => .next s

/-- The state with the instruction of `decodeTableWord` at `pc` and the block started, so that the very next step runs
it (log 6). -/
def State.withFetchWord (s : State) (nbits w : Nat) : State :=
  (s.storeBytes s.pc (tableByte nbits w 0) (tableByte nbits w 1) (tableByte nbits w 2)).setRunState .running

end Sys2Proof.Machine
end

