-- ==== Sys2Proof/Machine/Text.lean ====
section
/-! DEFINITION. Reading numbers from characters, for the program image's text (spec/70_reset_and_hazards.md R233) and the
assembler's (spec/30_encoding.md R81). Text is a list of characters. -/

namespace Sys2Proof.Machine.Text

/-- The value of a digit character of base at most 16. -/
def digitValue (c : Char) : Option Nat :=
  let n := c.toNat
  if 48 ≤ n ∧ n ≤ 57 then some (n - 48)
  else if 97 ≤ n ∧ n ≤ 102 then some (n - 87)
  else if 65 ≤ n ∧ n ≤ 70 then some (n - 55)
  else none

/-- Read digits of a base onto a number read so far; none where a character is no digit of the base. -/
def readDigits (base acc : Nat) (cs : List Char) : Option Nat :=
  match cs with
  | [] => some acc
  | c :: rest =>
    match digitValue c with
    | some d => if d < base then readDigits base (acc * base + d) rest else none
    | none => none

/-- Read a byte written with at least one digit of a base; none where it is no number or above 255. -/
def readByte (base : Nat) (cs : List Char) : Option Byte :=
  match cs with
  | [] => none
  | _ :: _ => (readDigits base 0 cs).bind fun n => if n < 256 then some (BitVec.ofNat 8 n) else none

/-- Cut a text at every character that satisfies the test. -/
def splitAtChars (isCut : Char → Bool) (cs : List Char) : List (List Char) :=
  match cs with
  | [] => [[]]
  | c :: rest =>
    if isCut c then [] :: splitAtChars isCut rest
    else
      match splitAtChars isCut rest with
      | [] => [[c]]
      | piece :: pieces => (c :: piece) :: pieces

end Sys2Proof.Machine.Text
end

