-- ==== Sys2Proof/Machine/Assembly.lean ====
section
/-! DEFINITION. The assembler syntax (spec/30_encoding.md R81). Assembly is not what the block reads (R82): nothing else of
the model uses this file. -/

namespace Sys2Proof.Machine.Assembly

/-- An instruction's mnemonic (R72, R76). -/
def mnemonic : Instr → List Char
  | .ldi _ _ => ['L', 'D', 'I']
  | .prn _ => ['P', 'R', 'N']
  | .hlt => ['H', 'L', 'T']
  | .mul _ _ => ['M', 'U', 'L']
  | .add _ _ => ['A', 'D', 'D']
  | .push _ => ['P', 'U', 'S', 'H']
  | .pop _ => ['P', 'O', 'P']
  | .call _ => ['C', 'A', 'L', 'L']
  | .ret => ['R', 'E', 'T']
  | .cmp _ _ => ['C', 'M', 'P']
  | .jmp _ => ['J', 'M', 'P']
  | .jeq _ => ['J', 'E', 'Q']
  | .jne _ => ['J', 'N', 'E']

/-- A register operand: `R` and the index (R81). -/
def regText (b : Byte) : List Char := 'R' :: Nat.toDigits 10 b.toNat

/-- An immediate, in decimal (R81). -/
def immText (b : Byte) : List Char := Nat.toDigits 10 b.toNat

/-- The operands of an instruction, as its format lists them (R72, R81). -/
def operandTexts : Instr → List (List Char)
  | .ldi a imm => [regText a, immText imm]
  | .prn a => [regText a]
  | .hlt => []
  | .mul a b => [regText a, regText b]
  | .add a b => [regText a, regText b]
  | .push a => [regText a]
  | .pop a => [regText a]
  | .call a => [regText a]
  | .ret => []
  | .cmp a b => [regText a, regText b]
  | .jmp a => [regText a]
  | .jeq a => [regText a]
  | .jne a => [regText a]

/-- An instruction as the spec writes it, with commas between operands: `LDI R0, 5` (R81). -/
def print (i : Instr) : List Char :=
  match operandTexts i with
  | [] => mnemonic i
  | [x] => mnemonic i ++ [' '] ++ x
  | x :: rest => mnemonic i ++ [' '] ++ x ++ rest.flatMap ([',', ' '] ++ ·)

/-- Read a register operand: `R0` to `R7`. -/
def readReg (cs : List Char) : Option Byte :=
  match cs with
  | [r, d] => if r = 'R' then (Text.readByte 10 [d]).filter isReg else none
  | _ => none

/-- Read an immediate: decimal, `0xNN` or `0bNNNNNNNN` (R81). -/
def readImm (cs : List Char) : Option Byte :=
  match cs with
  | z :: x :: digits =>
    if z = '0' ∧ x = 'x' ∧ digits.length = 2 then Text.readByte 16 digits
    else if z = '0' ∧ x = 'b' ∧ digits.length = 8 then Text.readByte 2 digits
    else Text.readByte 10 cs
  | _ => Text.readByte 10 cs

/-- Read an instruction from its words, the mnemonic in capitals. There are no pseudo-instructions (R81). -/
def assembleWords (words : List (List Char)) : Option Instr :=
  match words with
  | [m] =>
    if m = ['H', 'L', 'T'] then some .hlt
    else if m = ['R', 'E', 'T'] then some .ret
    else none
  | [m, x] =>
    (readReg x).bind fun a =>
      if m = ['P', 'R', 'N'] then some (.prn a)
      else if m = ['P', 'U', 'S', 'H'] then some (.push a)
      else if m = ['P', 'O', 'P'] then some (.pop a)
      else if m = ['C', 'A', 'L', 'L'] then some (.call a)
      else if m = ['J', 'M', 'P'] then some (.jmp a)
      else if m = ['J', 'E', 'Q'] then some (.jeq a)
      else if m = ['J', 'N', 'E'] then some (.jne a)
      else none
  | [m, x, y] =>
    (readReg x).bind fun a =>
      if m = ['L', 'D', 'I'] then (readImm y).map (.ldi a)
      else
        (readReg y).bind fun b =>
          if m = ['M', 'U', 'L'] then some (.mul a b)
          else if m = ['A', 'D', 'D'] then some (.add a b)
          else if m = ['C', 'M', 'P'] then some (.cmp a b)
          else none
  | _ => none

/-- A character between the words of a line: a space or a comma (R81). -/
def isSeparator (c : Char) : Bool := c == ' ' || c == ','

/-- Assemble one line; mnemonics are case-insensitive, spaces and commas both separate (R81, log 11). -/
def assemble (line : List Char) : Option Instr :=
  match (Text.splitAtChars isSeparator line).filter (· != []) with
  | [] => none
  | m :: operands => assembleWords (m.map Char.toUpper :: operands)

end Sys2Proof.Machine.Assembly
end

