-- ==== Sys2Proof/Machine/Ports.lean ====
section
/-! DEFINITION. The block's interface (spec/10_state.md R35 to R37): what the host's inputs do to the state, and what the
outputs show. The observation port of R37 reads memory, registers, `pc` and `FL` and changes nothing; in the model it is
reading the fields of State. -/

namespace Sys2Proof.Machine

/-- One input of the host, landing between two steps (R35, R107, log 13). -/
inductive HostInput where
  /-- `reset`. -/
  | reset
  /-- `start`. -/
  | start
  /-- A transfer on the load port: `load_we` with `load_addr` and `load_data`. -/
  | load (addr data : Byte)
deriving DecidableEq, Repr

/-- `start` moves IDLE to RUNNING, and does nothing in any other state (R234). -/
def State.start (s : State) : State :=
  match s.runState with
  | .idle => s.setRunState .running
  | .running => s
  | .halted => s
  | .faulted => s

/-- A load-port write: accepted in IDLE, ignored in every other state (R35, R64). -/
def State.loadPort (s : State) (addr data : Byte) : State :=
  match s.runState with
  | .idle => s.memWrite addr data
  | .running => s
  | .halted => s
  | .faulted => s

/-- What a host input does. Reset gives the same state whatever state it is applied in (R230). -/
def applyInput (i : HostInput) (s : State) : State :=
  match i with
  | .reset => State.reset
  | .start => s.start
  | .load addr data => s.loadPort addr data

/-! ### Outputs -/

/-- The encoding of the run state on `state[1:0]` (R35). -/
def RunState.encoding : RunState → BitVec 2
  | .idle => 0
  | .running => 1
  | .halted => 2
  | .faulted => 3

/-- `state[1:0]` (R35). -/
def State.stateOut (s : State) : BitVec 2 := s.runState.encoding

/-- `fault_code[1:0]` (R35, R29). -/
def State.faultCodeOut (s : State) : BitVec 2 := s.faultCode

/-- `fault_addr[7:0]` (R35, R29). -/
def State.faultAddrOut (s : State) : Byte := s.faultAddr

/-- `fault_op[7:0]` (R35, R29). -/
def State.faultOpOut (s : State) : Byte := s.faultOp

/-- The transfer on the output port between two states of a run (R36): `some v` is `out_valid` with `out_data = v`, `none`
is no transfer. -/
def outTransfer (before after : State) : Option Byte := (after.output.drop before.output.length).head?

/-! ### What the host makes of the outputs -/

/-- The text the host prints for an emitted byte: its unsigned decimal digits and a newline (R14, R123). -/
def renderByte (v : Byte) : List Char := Nat.toDigits 10 v.toNat ++ ['\n']

/-- The text the host prints for a run's output (R123). -/
def hostText (out : List Byte) : List Char := out.flatMap renderByte

/-- How a run ended, as the status outputs tell the host (R110, R207). The process status numbers are the host's and are
not specified (log 12). -/
inductive EndStatus where
  /-- HALTED. -/
  | success
  /-- FAULTED, with the fault's code. -/
  | failure (code : BitVec 2)
deriving DecidableEq, Repr

/-- The end of the run the state shows, none while there is no end (R110, R207). -/
def State.endStatus (s : State) : Option EndStatus :=
  match s.runState with
  | .idle => none
  | .running => none
  | .halted => some .success
  | .faulted => some (.failure s.faultCode)

end Sys2Proof.Machine
end

