-- ==== Sys2Proof/Machine/Loader.lean ====
section
/-! DEFINITION. The loader's contract with the block (spec/70_reset_and_hazards.md R232) and, as far as the spec states
it, the text format of a program image (R233). -/

namespace Sys2Proof.Machine

/-- Why the loader gives no program. -/
inductive LoadError where
  /-- The image has more than 256 bytes; it is never written (R232). -/
  | imageTooLong
  /-- A line of the image has more than 8 binary digits, or text after its digits: what the loader does there is not in
  the source (R233; spec/91_not_in_source.md N16; log 10). -/
  | unspecifiedLine
deriving DecidableEq, Repr

/-- Write bytes through the load port at consecutive addresses from `a` on (R232). -/
def State.loadFrom (s : State) (a : Byte) (bytes : List Byte) : State :=
  match bytes with
  | [] => s
  | b :: rest => (s.loadPort a b).loadFrom (a + 1) rest

/-- Load an image from the entry address on; a longer image than memory is never written (R232). -/
def State.loadImage (s : State) (image : List Byte) : Except LoadError State :=
  if image.length ≤ 256 then .ok (s.loadFrom Config.entry image) else .error .imageTooLong

/-- A character of a base-2 number (R233). -/
def isBit (c : Char) : Bool := c == '0' || c == '1'

/-- One line of the image: a byte in base 2; `none` where the line parses to no digits, and is skipped (R233). -/
def parseLine (line : List Char) : Except LoadError (Option Byte) :=
  match line.takeWhile isBit with
  | [] => .ok none
  | digits =>
    if digits.length = line.length ∧ digits.length ≤ 8 then .ok (Text.readByte 2 digits)
    else .error .unspecifiedLine

/-- The bytes of lines of text, one a line, skipped lines left out (R233). -/
def parseLines (lines : List (List Char)) : Except LoadError (List Byte) :=
  match lines with
  | [] => .ok []
  | line :: rest =>
    match parseLine line, parseLines rest with
    | .ok (some b), .ok bs => .ok (b :: bs)
    | .ok none, .ok bs => .ok bs
    | .error e, _ => .error e
    | .ok _, .error e => .error e

/-- The bytes of a program image's text: no header, no length prefix, no checksum (R233). -/
def parseImage (text : List Char) : Except LoadError (List Byte) :=
  parseLines (Text.splitAtChars (· == '\n') text)

end Sys2Proof.Machine
end

