-- ==== Sys2Proof/Safety.lean ====
section
/-! DEFINITION. What counts as a safe run, the states a run can reach, and the invariant of the machine, in the terms the
claims use. -/

namespace Sys2Proof.Machine

/-- `n` steps of the controller, ending early only where a step answers no next state. -/
def runSteps (n : Nat) (s : State) : Result :=
  match n with
  | 0 => .next s
  | k + 1 =>
    match step s with
    | .next t => runSteps k t
    | .fault r => .fault r
    | .refused r => .refused r

/-- A safe run of `n` steps: no step stops the model, and the block is not FAULTED (spec/60_exceptions.md R207). -/
def SafeRun (n : Nat) (s : State) : Prop := ∃ t, runSteps n s = .next t ∧ t.runState ≠ .faulted

/-- The states the block can be in: reset, and then steps and host inputs in any order
(spec/70_reset_and_hazards.md R230 to R234). -/
inductive Reachable : State → Prop where
  /-- After reset. -/
  | reset : Reachable State.reset
  /-- After a step. -/
  | step {s t : State} : Reachable s → step s = .next t → Reachable t
  /-- After an input of the host. -/
  | input {s : State} (i : HostInput) : Reachable s → Reachable (applyInput i s)

/-- The fault record is the same in both states. -/
def SameRecord (s t : State) : Prop := t.faultCode = s.faultCode ∧ t.faultAddr = s.faultAddr ∧ t.faultOp = s.faultOp

/-- The three latches are the same in both states. -/
def SameLatches (s t : State) : Prop := t.ir = s.ir ∧ t.opa = s.opa ∧ t.opb = s.opb

/-- The instruction at `pc`, by the decoder: what the next step would run (spec/40_controller.md R101, R102). -/
def State.nextInstr (s : State) : Except DecodeError Instr :=
  decode (s.memRead s.pc) (s.memRead (s.pc + 1)) (s.memRead (s.pc + 2))

/-- `op` is one of the 13 opcodes (spec/30_encoding.md R76). -/
def LegalOpcode (op : Byte) : Prop := op ∈ Opcode.legal

/-- What holds of the block in every state a run reaches. -/
structure State.Inv (s : State) : Prop where
  /-- Memory is in its canonical form. -/
  memCanonical : s.mem.wf
  /-- `FL` is zero (as reset leaves it) or has exactly one of `E`, `G`, `L` set; bits 7..3 are zero (R26, R27, R144). -/
  flagsLegal : s.fl ∈ [(0 : Byte), 1, 2, 4]
  /-- In IDLE everything but memory is as reset leaves it: the loader has filled memory and nothing else has happened (R28,
  R64, R232). -/
  idleIsReset : s.runState = .idle → s = { State.reset with mem := s.mem }
  /-- Outside FAULTED the fault record holds its reset value 0 (R29). -/
  recordClear : s.runState ≠ .faulted → s.faultCode = 0 ∧ s.faultAddr = 0 ∧ s.faultOp = 0
  /-- In FAULTED `pc` is the faulting address and the record holds the opcode byte that stands there (R29, R201). -/
  recordPlace : s.runState = .faulted → s.faultAddr = s.pc ∧ s.faultOp = s.memRead s.pc
  /-- In FAULTED the code is 1 at an illegal opcode, and 3 at an instruction with a register field of 8 or more; 2 never
  occurs (R102, R103, R141, R200). -/
  recordCause : s.runState = .faulted →
    (s.faultCode = Fault.illegalInstruction.code ∧ ¬ LegalOpcode s.faultOp) ∨
    (s.faultCode = Fault.illegalRegister.code ∧
      ∃ i, s.nextInstr = .ok i ∧ i.wf = false)
  /-- In HALTED `pc` stands just after a HLT (R105, R122). -/
  haltedAtHlt : s.runState = .halted → s.memRead (s.pc - 1) = Opcode.hlt

end Sys2Proof.Machine
end

