-- ==== Sys2Proof/Certificates/Slice0/Obligations.lean ====
section
/-! DEFINITION. The statements for the provers. A register operand is written as a byte `a` and the register `r` it names,
`a.toNat = r.val`: with `r` one of the eight registers that covers exactly the bytes 0 to 7, and the bytes from 8 on have
their own clause. A statement marked derived rests on a decision or an inference that the spec marks as its own; its
docstring names it. -/

open Sys2Proof Sys2Proof.Machine

/-- A memory write sets one cell and changes no other cell and no register. Formalises R52. -/
def Obligations.MemoryWriteChangesOneCell : Prop :=
  ∀ (s : State) (a v : Byte),
    (s.memWrite a v).memRead a = v ∧
    (∀ b : Byte, b ≠ a → (s.memWrite a v).memRead b = s.memRead b) ∧
    (∀ r : Reg, (s.memWrite a v).reg r = s.reg r) ∧
    { s.memWrite a v with mem := s.mem } = s

/-- Push(v) decrements SP, then writes v at the new SP, and changes nothing else. Formalises R54. -/
def Obligations.PushDecrementsThenWrites : Prop :=
  ∀ (s : State) (v : Byte),
    (s.push v).reg 7 = s.reg 7 - 1 ∧
    (s.push v).memRead (s.reg 7 - 1) = v ∧
    (∀ b : Byte, b ≠ s.reg 7 - 1 → (s.push v).memRead b = s.memRead b) ∧
    (∀ r : Reg, r ≠ 7 → (s.push v).reg r = s.reg r) ∧
    { s.push v with regs := s.regs, mem := s.mem } = s ∧
    (s.push (s.reg 7)).memRead (s.reg 7 - 1) = s.reg 7

/-- Pop() returns the byte at SP, then increments SP, and changes only R7. Formalises R55. -/
def Obligations.PopReadsThenIncrements : Prop :=
  ∀ s : State,
    s.pop.1 = s.memRead (s.reg 7) ∧
    s.pop.2.reg 7 = s.reg 7 + 1 ∧
    (∀ r : Reg, r ≠ 7 → s.pop.2.reg r = s.reg r) ∧
    (∀ b : Byte, s.pop.2.memRead b = s.memRead b) ∧
    { s.pop.2 with regs := s.regs } = s

/-- Writing a register changes only the named register, and no register is hardwired. Formalises R20. -/
def Obligations.RegisterWriteChangesOneRegister : Prop :=
  ∀ (s : State) (r : Reg) (v : Byte),
    (s.setReg r v).reg r = v ∧
    (∀ q : Reg, q ≠ r → (s.setReg r v).reg q = s.reg q) ∧
    { s.setReg r v with regs := s.regs } = s

/-- The stack has no bounds check: a push at SP 0x00 and a pop of an empty stack run and wrap. Derived; rests on
20_memory.md, section 2, Stack primitives (no bounds check; marked derived there). (The rule R57 is derived by the
spec from its own rules.) -/
def Obligations.StackWrapsAndNeverFaults : Prop :=
  ∀ (a : Byte) (r : Reg) (s : State), a.toNat = r.val →
    (s.reg 7 = 0x00 → ∃ t, exec (.push a) s = .next t ∧ t.reg 7 = 0xFF ∧ t.memRead 0xFF = s.reg r ∧
      t.runState = s.runState) ∧
    (s.reg 7 = 0xF4 → r ≠ 7 → ∃ t, exec (.pop a) s = .next t ∧ t.reg r = s.memRead 0xF4 ∧ t.reg 7 = 0xF5 ∧
      t.runState = s.runState) ∧
    (s.reg 7 = 0xFF → r ≠ 7 → ∃ t, exec (.pop a) s = .next t ∧ t.reg r = s.memRead 0xFF ∧ t.reg 7 = 0x00 ∧
      t.runState = s.runState)

/-- LDI A, B: x[A] <- B, pc <- pc + 3, nothing else; and LDI r, v then PRN r emits v in decimal. Formalises R120.
The opcode byte rests on the spec's decision D1 and the register fault on D3 (log 1, log 8). -/
def Obligations.LdiLoadsItsImmediate : Prop :=
  (∀ a imm : Byte, decode 0x82 a imm = .ok (.ldi a imm)) ∧
  (∀ (a imm : Byte) (r : Reg) (s : State), a.toNat = r.val →
    exec (.ldi a imm) s = .next { s with regs := s.regs.set r.val imm, pc := s.pc + 3 }) ∧
  (∀ (a imm : Byte) (s : State), 8 ≤ a.toNat →
    exec (.ldi a imm) s = .next { s with runState := .faulted, faultCode := 3, faultAddr := s.pc, faultOp := 0x82 }) ∧
  (∀ (a imm : Byte) (r : Reg) (s : State), a.toNat = r.val → ∃ t u,
    exec (.ldi a imm) s = .next t ∧ exec (.prn a) t = .next u ∧ u.output = s.output ++ [imm] ∧
    hostText u.output = hostText s.output ++ renderByte imm)

/-- PRN A: one transfer of x[A] on the output port, pc <- pc + 2, nothing else. Formalises R121. The opcode byte
rests on the spec's decision D1 and the register fault on D3 (log 1, log 8). -/
def Obligations.PrnEmitsTheRegister : Prop :=
  (∀ a b : Byte, decode 0x47 a b = .ok (.prn a)) ∧
  (∀ (a : Byte) (r : Reg) (s : State), a.toNat = r.val →
    exec (.prn a) s = .next { s with output := s.output ++ [s.reg r], pc := s.pc + 2 }) ∧
  (∀ (a : Byte) (s : State), 8 ≤ a.toNat →
    exec (.prn a) s = .next { s with runState := .faulted, faultCode := 3, faultAddr := s.pc, faultOp := 0x47 })

/-- HLT: the run state becomes HALTED, pc <- pc + 1 (decision D8), nothing else. Derived; rests on
41_load_output_halt.md, HLT; 92_eei_decisions.md D1, D8. The pc after HLT is the spec's own decision D8, so the
statement is derived. -/
def Obligations.HltEntersHalted : Prop :=
  (∀ a b : Byte, decode 0x01 a b = .ok .hlt) ∧
  (∀ s : State, exec .hlt s = .next { s with runState := .halted, pc := s.pc + 1 })

/-- MUL A, B: x[A] <- (x[A] * x[B]) mod 256, no flag, pc <- pc + 3. Formalises R142. The opcode byte rests on the
spec's decision D1 and the register fault on D3 (log 1, log 8). -/
def Obligations.MulKeepsTheLowByte : Prop :=
  (∀ a b : Byte, decode 0xA2 a b = .ok (.mul a b)) ∧
  (∀ (a b : Byte) (ra rb : Reg) (s : State), a.toNat = ra.val → b.toNat = rb.val →
    exec (.mul a b) s = .next { s with
      regs := s.regs.set ra.val (BitVec.ofNat 8 ((s.reg ra).toNat * (s.reg rb).toNat % 256)), pc := s.pc + 3 }) ∧
  (∀ (a b : Byte) (s : State), 8 ≤ a.toNat ∨ 8 ≤ b.toNat →
    exec (.mul a b) s = .next { s with runState := .faulted, faultCode := 3, faultAddr := s.pc, faultOp := 0xA2 })

/-- ADD A, B: x[A] <- (x[A] + x[B]) mod 256, no flag, pc <- pc + 3. Formalises R143. The opcode byte rests on the
spec's decision D1 and the register fault on D3 (log 1, log 8). -/
def Obligations.AddAddsModulo256 : Prop :=
  (∀ a b : Byte, decode 0xA0 a b = .ok (.add a b)) ∧
  (∀ (a b : Byte) (ra rb : Reg) (s : State), a.toNat = ra.val → b.toNat = rb.val →
    exec (.add a b) s = .next { s with
      regs := s.regs.set ra.val (BitVec.ofNat 8 (((s.reg ra).toNat + (s.reg rb).toNat) % 256)), pc := s.pc + 3 }) ∧
  (∀ (a b : Byte) (s : State), 8 ≤ a.toNat ∨ 8 ≤ b.toNat →
    exec (.add a b) s = .next { s with runState := .faulted, faultCode := 3, faultAddr := s.pc, faultOp := 0xA0 })

/-- CMP A, B: FL <- 0b00000LGE by an unsigned comparison, pc <- pc + 3, nothing else. Derived; rests on 42_alu.md,
CMP; 10_state.md, section 3, Flags register; 92_eei_decisions.md D1, D3, D5. The layout and the unsigned comparison
are the spec's decision D5, so the statement is derived. -/
def Obligations.CmpWritesAllFlags : Prop :=
  (∀ a b : Byte, decode 0xA7 a b = .ok (.cmp a b)) ∧
  (∀ (a b : Byte) (ra rb : Reg) (s : State), a.toNat = ra.val → b.toNat = rb.val →
    exec (.cmp a b) s = .next { s with
      fl := if (s.reg ra).toNat < (s.reg rb).toNat then 4 else if (s.reg rb).toNat < (s.reg ra).toNat then 2 else 1,
      pc := s.pc + 3 }) ∧
  (∀ (a b : Byte) (s : State), 8 ≤ a.toNat ∨ 8 ≤ b.toNat →
    exec (.cmp a b) s = .next { s with runState := .faulted, faultCode := 3, faultAddr := s.pc, faultOp := 0xA7 })

/-- PUSH A: SP decremented, the register's old value stored at the new SP, pc <- pc + 2. Derived; rests on
43_stack.md, PUSH; 92_eei_decisions.md D1, D3. PUSH R7 is marked derived in the spec, so the statement is derived.
-/
def Obligations.PushStoresTheRegister : Prop :=
  (∀ a b : Byte, decode 0x45 a b = .ok (.push a)) ∧
  (∀ (a : Byte) (r : Reg) (s : State), a.toNat = r.val →
    exec (.push a) s = .next { s with
      regs := s.regs.set 7 (s.reg 7 - 1), mem := s.mem.write (s.reg 7 - 1) (s.reg r), pc := s.pc + 2 }) ∧
  (∀ (a : Byte) (s : State), 8 ≤ a.toNat →
    exec (.push a) s = .next { s with runState := .faulted, faultCode := 3, faultAddr := s.pc, faultOp := 0x45 })

/-- POP A: SP incremented, then the byte at the old SP written to x[A], pc <- pc + 2. Derived; rests on 43_stack.md,
POP; 90_conflicts.md C7; 92_eei_decisions.md D1, D3. POP R7 is marked derived in the spec, so the statement is
derived. -/
def Obligations.PopLoadsTheRegister : Prop :=
  (∀ a b : Byte, decode 0x46 a b = .ok (.pop a)) ∧
  (∀ (a : Byte) (r : Reg) (s : State), a.toNat = r.val →
    exec (.pop a) s = .next { s with
      regs := (s.regs.set 7 (s.reg 7 + 1)).set r.val (s.memRead (s.reg 7)), pc := s.pc + 2 }) ∧
  (∀ (a : Byte) (s : State), 8 ≤ a.toNat →
    exec (.pop a) s = .next { s with runState := .faulted, faultCode := 3, faultAddr := s.pc, faultOp := 0x46 })

/-- CALL A: push pc + 2, then pc <- x[A], read after the push (decision D10). Derived; rests on 44_control_flow.md,
CALL; 92_eei_decisions.md D1, D3, D10. The order for CALL R7 is the spec's decision D10, so the statement is
derived. -/
def Obligations.CallPushesThenJumps : Prop :=
  (∀ a b : Byte, decode 0x50 a b = .ok (.call a)) ∧
  (∀ (a : Byte) (r : Reg) (s : State), a.toNat = r.val →
    exec (.call a) s = .next { s with
      regs := s.regs.set 7 (s.reg 7 - 1), mem := s.mem.write (s.reg 7 - 1) (s.pc + 2),
      pc := if r = 7 then s.reg 7 - 1 else s.reg r }) ∧
  (∀ (a : Byte) (s : State), 8 ≤ a.toNat →
    exec (.call a) s = .next { s with runState := .faulted, faultCode := 3, faultAddr := s.pc, faultOp := 0x50 })

/-- RET: pc <- the byte at SP, SP incremented, nothing else. Formalises R181. The opcode byte rests on the spec's
decision D1 (log 1). -/
def Obligations.RetPopsThePc : Prop :=
  (∀ a b : Byte, decode 0x11 a b = .ok .ret) ∧
  (∀ s : State, exec .ret s =
    .next { s with regs := s.regs.set 7 (s.reg 7 + 1), pc := s.memRead (s.reg 7) })

/-- JMP A: pc <- x[A], nothing else. Formalises R182. The opcode byte rests on the spec's decision D1 and the
register fault on D3 (log 1, log 8). -/
def Obligations.JmpSetsThePc : Prop :=
  (∀ a b : Byte, decode 0x54 a b = .ok (.jmp a)) ∧
  (∀ (a : Byte) (r : Reg) (s : State), a.toNat = r.val →
    exec (.jmp a) s = .next { s with pc := s.reg r }) ∧
  (∀ (a : Byte) (s : State), 8 ≤ a.toNat →
    exec (.jmp a) s = .next { s with runState := .faulted, faultCode := 3, faultAddr := s.pc, faultOp := 0x54 })

/-- JEQ A: pc <- x[A] if bit E of FL is 1, else pc + 2; nothing else. Formalises R183. The opcode byte rests on the
spec's decision D1 and the register fault on D3 (log 1, log 8). -/
def Obligations.JeqJumpsOnEqual : Prop :=
  (∀ a b : Byte, decode 0x55 a b = .ok (.jeq a)) ∧
  (∀ (a : Byte) (r : Reg) (s : State), a.toNat = r.val →
    exec (.jeq a) s = .next { s with pc := if s.fl.getLsbD 0 = true then s.reg r else s.pc + 2 }) ∧
  (∀ (a : Byte) (s : State), 8 ≤ a.toNat →
    exec (.jeq a) s = .next { s with runState := .faulted, faultCode := 3, faultAddr := s.pc, faultOp := 0x55 })

/-- JNE A: pc <- x[A] if bit E of FL is 0, else pc + 2; nothing else. Formalises R184. The opcode byte rests on the
spec's decision D1 and the register fault on D3 (log 1, log 8). -/
def Obligations.JneJumpsOnNotEqual : Prop :=
  (∀ a b : Byte, decode 0x56 a b = .ok (.jne a)) ∧
  (∀ (a : Byte) (r : Reg) (s : State), a.toNat = r.val →
    exec (.jne a) s = .next { s with pc := if s.fl.getLsbD 0 = false then s.reg r else s.pc + 2 }) ∧
  (∀ (a : Byte) (s : State), 8 ≤ a.toNat →
    exec (.jne a) s = .next { s with runState := .faulted, faultCode := 3, faultAddr := s.pc, faultOp := 0x56 }) ∧
  (∀ (a : Byte) (r : Reg) (s : State), a.toNat = r.val → ∃ t u, exec (.jeq a) s = .next t ∧ exec (.jne a) s = .next u ∧
    ((t.pc = s.reg r ∧ u.pc = s.pc + 2) ∨ (t.pc = s.pc + 2 ∧ u.pc = s.reg r)))

/-- A step latches the three bytes at pc and runs the instruction they decode to. Derived; rests on
40_controller.md, section 1, The step (fetch); 10_state.md, section 5, Hidden state. What the latches hold after a
step is the model's choice (log 3), so the statement is derived. -/
def Obligations.StepRunsTheDecodedInstruction : Prop :=
  ∀ s : State, s.runState = .running →
    (∀ i : Instr, decode (s.memRead s.pc) (s.memRead (s.pc + 1)) (s.memRead (s.pc + 2)) = .ok i →
      step s = exec i { s with ir := s.memRead s.pc, opa := s.memRead (s.pc + 1), opb := s.memRead (s.pc + 2) }) ∧
    (∀ e : DecodeError, decode (s.memRead s.pc) (s.memRead (s.pc + 1)) (s.memRead (s.pc + 2)) = .error e →
      ∃ t, step s = .next t ∧ t.ir = s.memRead s.pc ∧ t.opa = s.memRead (s.pc + 1) ∧ t.opb = s.memRead (s.pc + 2))

/-- A step at an opcode outside the 13 takes IllegalInstruction and does nothing else. Derived; rests on
40_controller.md, section 1, The step (decode); 60_exceptions.md, section 1, Faults; 92_eei_decisions.md D1, D14.
The 13 bytes are the spec's decision D1, code 1 is its decision D14, and what the latches hold after the step is the
model's choice (log 3), so the statement is derived. -/
def Obligations.IllegalOpcodeFaults : Prop :=
  ∀ s : State, s.runState = .running →
    s.memRead s.pc ∉ [(0x82 : Byte), 0x47, 0x01, 0xA2, 0xA0, 0x45, 0x46, 0x50, 0x11, 0xA7, 0x54, 0x55, 0x56] →
    step s = .next { s with
      ir := s.memRead s.pc, opa := s.memRead (s.pc + 1), opb := s.memRead (s.pc + 2),
      runState := .faulted, faultCode := 1, faultAddr := s.pc, faultOp := s.memRead s.pc }

/-- Raising a fault enters FAULTED and writes the fault record, and nothing else. Derived; rests on
60_exceptions.md, section 1, Faults; 92_eei_decisions.md D14. The code numbers are the spec's decision D14, so the
statement is derived. -/
def Obligations.RaiseWritesOnlyStateAndRecord : Prop :=
  ∀ (s : State) (f : Fault) (addr op : Byte),
    s.raise f addr op = { s with
      runState := .faulted,
      faultCode := match f with | .illegalInstruction => 1 | .unimplementedAluOp => 2 | .illegalRegister => 3,
      faultAddr := addr, faultOp := op }

/-- Every instruction with a register field of 8 or more takes IllegalRegister, and no other one faults. Derived;
rests on 40_controller.md, Register check; 92_eei_decisions.md D3, D25. The fault is the spec's decision D3, so the
statement is derived. -/
def Obligations.IllegalRegisterFaultsExactly : Prop :=
  ∀ (i : Instr) (s : State),
    ((∃ f ∈ i.regFields, 8 ≤ f.toNat) → exec i s =
      .next { s with runState := .faulted, faultCode := 3, faultAddr := s.pc, faultOp := i.opcode }) ∧
    ((∀ f ∈ i.regFields, f.toNat < 8) → ∃ t, exec i s = .next t ∧ SameRecord s t ∧
      (t.runState = s.runState ∨ t.runState = .halted))

/-- The register fields of each instruction, and when it is well formed. Derived; rests on 30_encoding.md, section
2, Operands; 92_eei_decisions.md D3. That 8 to 255 fault is the spec's decision D3, so the statement is derived. -/
def Obligations.RegisterFieldsOfEachFormat : Prop :=
  ∀ a b : Byte,
    ((Instr.ldi a b).wf = true ↔ a.toNat < 8) ∧ ((Instr.prn a).wf = true ↔ a.toNat < 8) ∧
    Instr.hlt.wf = true ∧ ((Instr.mul a b).wf = true ↔ a.toNat < 8 ∧ b.toNat < 8) ∧
    ((Instr.add a b).wf = true ↔ a.toNat < 8 ∧ b.toNat < 8) ∧ ((Instr.push a).wf = true ↔ a.toNat < 8) ∧
    ((Instr.pop a).wf = true ↔ a.toNat < 8) ∧ ((Instr.call a).wf = true ↔ a.toNat < 8) ∧
    Instr.ret.wf = true ∧ ((Instr.cmp a b).wf = true ↔ a.toNat < 8 ∧ b.toNat < 8) ∧
    ((Instr.jmp a).wf = true ↔ a.toNat < 8) ∧ ((Instr.jeq a).wf = true ↔ a.toNat < 8) ∧
    ((Instr.jne a).wf = true ↔ a.toNat < 8)

/-- Every step answers a next state: nothing stops the model, and a fault is a state. Derived; rests on
40_controller.md, section 1, The step (determinism; marked derived there); 60_exceptions.md, section 1, Faults. -/
def Obligations.EveryStepAnswersANextState : Prop :=
  ∀ s : State, (∃ t, step s = .next t) ∧ ∀ i : Instr, ∃ t, exec i s = .next t

/-- Outside RUNNING no step changes anything, and only HALTED and FAULTED end RUNNING. Formalises R100. -/
def Obligations.ControllerStepsOnlyWhileRunning : Prop :=
  (∀ (s : State) (n : Nat), s.runState ≠ .running → runSteps n s = .next s) ∧
  (∀ s t : State, s.runState = .running → step s = .next t →
    t.runState = .running ∨ t.runState = .halted ∨ t.runState = .faulted) ∧
  (∀ (s : State) (i : HostInput), s.runState = .running → i ≠ .reset → (applyInput i s).runState = .running)

/-- A step halts exactly at HLT and faults exactly at an illegal opcode or register field. Derived; rests on
10_state.md, section 4, Run state and fault record; 60_exceptions.md, sections 1 and 2; 92_eei_decisions.md D3, D7.
The run states are the spec's decision D7 and the register fault D3, so the statement is derived. -/
def Obligations.RunStateAfterAStep : Prop :=
  ∀ s t : State, s.runState = .running → step s = .next t →
    (t.runState = .halted ↔ s.nextInstr = .ok .hlt) ∧
    (t.runState = .faulted ↔ (∃ e, s.nextInstr = .error e) ∨ ∃ i, s.nextInstr = .ok i ∧ i.wf = false) ∧
    (t.runState = .running ↔ ∃ i, s.nextInstr = .ok i ∧ i.wf = true ∧ i ≠ .hlt)

/-- A step that faults leaves registers, memory, FL, pc and output as they were. Formalises R202. -/
def Obligations.FaultsArePrecise : Prop :=
  ∀ s t : State, s.runState = .running → step s = .next t → t.runState = .faulted →
    t.regs = s.regs ∧ t.mem = s.mem ∧ t.fl = s.fl ∧ t.pc = s.pc ∧ t.output = s.output ∧
    t.faultAddr = s.pc ∧ t.faultOp = s.memRead s.pc

/-- An instruction with P = 0 advances pc by 1 + N, its length. Derived; rests on 40_controller.md, section 1, The
step (auto-advance); 92_eei_decisions.md D8. The advance after HLT is the spec's decision D8, so the statement is
derived. -/
def Obligations.AutoAdvanceByLength : Prop :=
  ∀ (i : Instr) (s : State), i.wf = true → i.opcode.getLsbD 4 = false →
    ∃ t, exec i s = .next t ∧ t.pc = s.pc + 1 + (i.opcode >>> 6) ∧
      s.pc + 1 + (i.opcode >>> 6) = s.pc + BitVec.ofNat 8 i.format.length

/-- Bits 7..6 and bit 4 of each opcode are the N and P of the opcode table. Derived; rests on 30_encoding.md,
section 3, Opcode map; 92_eei_decisions.md D1. The byte values are the spec's decision D1, so the statement is
derived. -/
def Obligations.OpcodeFieldsMatchTheTable : Prop :=
  ∀ i : Instr,
    i.opcode.getLsbD 4 = (match i with
      | .call _ => true | .ret => true | .jmp _ => true | .jeq _ => true | .jne _ => true
      | .ldi _ _ => false | .prn _ => false | .hlt => false | .mul _ _ => false | .add _ _ => false
      | .push _ => false | .pop _ => false | .cmp _ _ => false) ∧
    (i.opcode >>> 6).toNat = (match i with
      | .ldi _ _ => 2 | .mul _ _ => 2 | .add _ _ => 2 | .cmp _ _ => 2
      | .prn _ => 1 | .push _ => 1 | .pop _ => 1 | .call _ => 1 | .jmp _ => 1 | .jeq _ => 1 | .jne _ => 1
      | .hlt => 0 | .ret => 0)

/-- The length of an instruction is 1 plus bits 7..6 of its opcode byte. Derived; rests on 30_encoding.md, section
4, Length decode; 92_eei_decisions.md D1. -/
def Obligations.LengthFromTheOpcodeByte : Prop :=
  ∀ i : Instr, (encode i).head? = some i.opcode ∧ (encode i).length = 1 + (i.opcode >>> 6).toNat ∧
    ∀ j : Instr, (encode i).head? = (encode j).head? → (encode i).length = (encode j).length

/-- The decoder refuses exactly the 243 byte values outside the opcode map. Derived; rests on 30_encoding.md,
section 3, Opcode map; 92_eei_decisions.md D1, D2, D15. The 13 values are the spec's decision D1, so the statement
is derived. -/
def Obligations.IllegalOpcodesAreTheOther243 : Prop :=
  (∀ op a b : Byte, decode op a b = .error (.illegalOpcode op) ↔
    op ∉ [(0x82 : Byte), 0x47, 0x01, 0xA2, 0xA0, 0x45, 0x46, 0x50, 0x11, 0xA7, 0x54, 0x55, 0x56]) ∧
  ((List.range 256).filter fun n => (decode (BitVec.ofNat 8 n) 0 0).toOption.isNone).length = 243

/-- Three bytes decode to an instruction exactly when they begin with its encoding. Derived; rests on
30_encoding.md, sections 1 to 4; 40_controller.md, section 1, The step; 92_eei_decisions.md D1, D2. -/
def Obligations.DecodeAndEncodeAgree : Prop :=
  ∀ (op a b : Byte) (i : Instr), decode op a b = .ok i ↔ encode i <+: [op, a, b]

/-- Words written out from the opcode table decode to the instructions they stand for. Derived; rests on
30_encoding.md, section 3, Opcode map; 95_test_vectors.md. -/
def Obligations.DecodedWordsOfTheTable : Prop :=
  decode 0x82 0x03 0xFF = .ok (.ldi 3 255) ∧ decode 0x47 0x05 0x00 = .ok (.prn 5) ∧
  decode 0xA2 0x02 0x03 = .ok (.mul 2 3) ∧ decode 0xA0 0x00 0x01 = .ok (.add 0 1) ∧
  decode 0xA7 0x00 0x01 = .ok (.cmp 0 1) ∧ decode 0x45 0x01 0x00 = .ok (.push 1) ∧
  decode 0x46 0x02 0x00 = .ok (.pop 2) ∧ decode 0x50 0x01 0x00 = .ok (.call 1) ∧
  decode 0x11 0x00 0x00 = .ok .ret ∧ decode 0x54 0x00 0x00 = .ok (.jmp 0) ∧
  decode 0x55 0x02 0x00 = .ok (.jeq 2) ∧ decode 0x56 0x02 0x00 = .ok (.jne 2) ∧
  decode 0x01 0x00 0x00 = .ok .hlt

/-- The bytes after a one-byte or two-byte instruction change neither which instruction is read nor what its step
does. Derived; rests on 30_encoding.md, section 2, Operands; 92_eei_decisions.md D1. The latches, which hold the
unused bytes too (log 3), are not spoken of. Which bytes are opcodes is the spec's decision D1, so the statement is
derived. -/
def Obligations.UnusedOperandBytesHaveNoEffect : Prop :=
  (∀ (s t : State) (i : Instr), s.nextInstr = .ok i → t.memRead t.pc = s.memRead s.pc →
    ((i.opcode >>> 6).toNat = 0 ∨ ((i.opcode >>> 6).toNat = 1 ∧ t.memRead (t.pc + 1) = s.memRead (s.pc + 1))) →
    t.nextInstr = .ok i) ∧
  (∀ (s t : State) (i : Instr), s.runState = .running → { t with mem := s.mem } = s → s.nextInstr = .ok i →
    t.memRead s.pc = s.memRead s.pc →
    ((i.opcode >>> 6).toNat = 0 ∨ ((i.opcode >>> 6).toNat = 1 ∧ t.memRead (s.pc + 1) = s.memRead (s.pc + 1))) →
    t.memRead (s.reg 7) = s.memRead (s.reg 7) →
    ∃ u v, step s = .next u ∧ step t = .next v ∧ v.regs = u.regs ∧ v.pc = u.pc ∧ v.fl = u.fl ∧
      v.runState = u.runState ∧ SameRecord u v ∧ v.output = u.output ∧
      ∀ x : Byte, t.memRead x = s.memRead x → v.memRead x = u.memRead x)

/-- The state after reset meets the machine's invariant. Derived; rests on 10_state.md, section 6, Reset values;
70_reset_and_hazards.md, section 1. -/
def Obligations.InvariantHoldsAtReset : Prop :=
  State.reset.Inv

/-- Every step from a state that meets the invariant leads to one that meets it. Derived; rests on 10_state.md,
sections 3, 4 and 6; 60_exceptions.md, section 1, Faults; 40_controller.md, section 1, The step. -/
def Obligations.StepKeepsTheInvariant : Prop :=
  ∀ s t : State, s.Inv → step s = .next t → t.Inv

/-- Reset, start and load-port writes keep the invariant. Derived; rests on 10_state.md, section 7, Block interface;
20_memory.md, section 5; 70_reset_and_hazards.md, section 1. -/
def Obligations.HostInputsKeepTheInvariant : Prop :=
  ∀ (s : State) (i : HostInput), s.Inv → (applyInput i s).Inv

/-- Every state reached from reset by steps and host inputs in any order meets the invariant. Derived; rests on
10_state.md, sections 3, 4, 6 and 7; 40_controller.md, section 1, The step; 70_reset_and_hazards.md, section 1. -/
def Obligations.ReachableStatesMeetTheInvariant : Prop :=
  ∀ s : State, Reachable s → s.Inv ∧ ∃ t, step s = .next t

/-- What IR, OPA and OPB hold before a step changes nothing the step does. Derived; rests on 10_state.md, section 5,
Hidden state. The latches live inside a step only; their values at reset and between steps are the model's choice
(log 2, log 3), and no step depends on them. -/
def Obligations.NoStepReadsTheOldLatches : Prop :=
  ∀ (s : State) (x y z : Byte), s.runState = .running →
    step { s with ir := x, opa := y, opb := z } = step s

/-- Which instructions write which registers. Derived; rests on 10_state.md, section 1, General registers. -/
def Obligations.RegistersAreWrittenOnlyByTheirInstructions : Prop :=
  ∀ (i : Instr) (s t : State) (r : Reg), exec i s = .next t → t.reg r ≠ s.reg r →
    match i with
    | .ldi a _ => a.toNat = r.val
    | .add a _ => a.toNat = r.val
    | .mul a _ => a.toNat = r.val
    | .pop a => a.toNat = r.val ∨ r = 7
    | .push _ => r = 7
    | .call _ => r = 7
    | .ret => r = 7
    | .prn _ => False
    | .hlt => False
    | .cmp _ _ => False
    | .jmp _ => False
    | .jeq _ => False
    | .jne _ => False

/-- Only CMP writes FL, only JEQ and JNE read it and only its bit E, and bits 7..3 stay zero. Formalises R27. -/
def Obligations.FlagsAreWrittenOnlyByCmp : Prop :=
  (∀ (i : Instr) (s t : State), exec i s = .next t → t.fl ≠ s.fl → ∃ a b, i = .cmp a b) ∧
  (∀ (i : Instr) (s t : State), exec i s = .next t → s.fl.toNat < 8 → t.fl.toNat < 8) ∧
  (∀ (i : Instr) (s t : State) (f : Byte), exec i s = .next t → (∀ a b, i ≠ .cmp a b) →
    (f.getLsbD 0 = s.fl.getLsbD 0 ∨ ((∀ a, i ≠ .jeq a) ∧ ∀ a, i ≠ .jne a)) →
    exec i { s with fl := f } = .next { t with fl := f }) ∧
  (∀ (a b : Byte) (s t : State) (f : Byte), exec (.cmp a b) s = .next t →
    exec (.cmp a b) { s with fl := f } = .next (if a.toNat < 8 ∧ b.toNat < 8 then t else { t with fl := f }))

/-- Of the instructions only PUSH and CALL write memory, and only the cell below SP. Derived; rests on 20_memory.md,
sections 1 and 2. -/
def Obligations.MemoryIsWrittenOnlyByPushAndCall : Prop :=
  ∀ (i : Instr) (s t : State), exec i s = .next t →
    (((∀ a, i ≠ .push a) ∧ ∀ a, i ≠ .call a) → t.mem = s.mem) ∧
    (∀ x : Byte, x ≠ s.reg 7 - 1 → t.memRead x = s.memRead x)

/-- A step transfers a byte on the output port exactly when it runs PRN, and then the register's value. Derived;
rests on 10_state.md, section 7, Block interface; 41_load_output_halt.md, PRN; 92_eei_decisions.md D11. That the
port never stalls is the spec's decision D11. -/
def Obligations.OutputGrowsOnlyByPrn : Prop :=
  ∀ s t : State, s.runState = .running → step s = .next t →
    (∀ (a : Byte) (r : Reg), s.nextInstr = .ok (.prn a) → a.toNat = r.val →
      t.output = s.output ++ [s.reg r] ∧ outTransfer s t = some (s.reg r)) ∧
    ((∀ a : Byte, s.nextInstr = .ok (.prn a) → 8 ≤ a.toNat) → t.output = s.output ∧ outTransfer s t = none)

/-- LDI, MUL, ADD and POP leave everything but their destination (POP: and SP) and pc unchanged. Derived; rests on
41_load_output_halt.md, LDI; 42_alu.md, MUL and ADD; 43_stack.md, POP. That the latches keep their bytes is the
model's choice (log 3). -/
def Obligations.FrameOfRegisterWriters : Prop :=
  ∀ (i : Instr) (a b : Byte) (d : Reg) (s : State), a.toNat = d.val → i.wf = true →
    i = .ldi a b ∨ i = .mul a b ∨ i = .add a b ∨ i = .pop a →
    ∃ t, exec i s = .next t ∧
      (∀ r : Reg, r ≠ d → (i = .pop a → r ≠ 7) → t.reg r = s.reg r) ∧
      (∀ x : Byte, t.memRead x = s.memRead x) ∧
      t.fl = s.fl ∧ t.runState = s.runState ∧ t.output = s.output ∧ SameRecord s t ∧ SameLatches s t

/-- PUSH and CALL leave everything but SP, the cell at SP - 1 and pc unchanged. Derived; rests on 43_stack.md, PUSH;
44_control_flow.md, CALL; 20_memory.md, section 2. That the latches keep their bytes is the model's choice (log 3).
-/
def Obligations.FrameOfStoringInstructions : Prop :=
  ∀ (i : Instr) (a : Byte) (s : State), i.wf = true → i = .push a ∨ i = .call a →
    ∃ t, exec i s = .next t ∧
      (∀ r : Reg, r ≠ 7 → t.reg r = s.reg r) ∧
      (∀ x : Byte, x ≠ s.reg 7 - 1 → t.memRead x = s.memRead x) ∧
      t.fl = s.fl ∧ t.runState = s.runState ∧ t.output = s.output ∧ SameRecord s t ∧ SameLatches s t

/-- PRN, HLT, CMP, RET, JMP, JEQ and JNE change only what the spec names for each, and pc. Derived; rests on
41_load_output_halt.md, PRN and HLT; 42_alu.md, CMP; 44_control_flow.md. That the latches keep their bytes is the
model's choice (log 3). -/
def Obligations.FrameOfTheOtherInstructions : Prop :=
  ∀ (i : Instr) (a b : Byte) (s : State), i.wf = true →
    i = .prn a ∨ i = .hlt ∨ i = .cmp a b ∨ i = .ret ∨ i = .jmp a ∨ i = .jeq a ∨ i = .jne a →
    ∃ t, exec i s = .next t ∧
      (∀ r : Reg, (i = .ret → r ≠ 7) → t.reg r = s.reg r) ∧
      (∀ x : Byte, t.memRead x = s.memRead x) ∧
      (i ≠ .cmp a b → t.fl = s.fl) ∧ (i ≠ .hlt → t.runState = s.runState) ∧
      (i ≠ .prn a → t.output = s.output) ∧ SameRecord s t ∧ SameLatches s t

/-- PUSH r then POP q gives q the old value of r, and SP back unless q is R7. Derived; rests on 43_stack.md, POP;
90_conflicts.md C7. The exception for R7 is the spec's resolution C7, so the statement is derived. -/
def Obligations.PushThenPopRoundTrip : Prop :=
  ∀ (a b : Byte) (r q : Reg) (s : State), a.toNat = r.val → b.toNat = q.val →
    ∃ t u, exec (.push a) s = .next t ∧ exec (.pop b) t = .next u ∧ u.reg q = s.reg r ∧
      (q ≠ 7 → u.reg 7 = s.reg 7) ∧ (∀ p : Reg, p ≠ 7 → p ≠ q → u.reg p = s.reg p) ∧ u.pc = s.pc + 4

/-- RET from a balanced subroutine restores the address after the CALL and the old SP. Derived; rests on
44_control_flow.md, CALL and RET. -/
def Obligations.CallThenRetReturns : Prop :=
  ∀ (a : Byte) (r : Reg) (s : State), a.toNat = r.val → ∃ t, exec (.call a) s = .next t ∧
    ∀ u : State, u.reg 7 = t.reg 7 → u.memRead (u.reg 7) = t.memRead (t.reg 7) →
      ∃ v, exec .ret u = .next v ∧ v.pc = s.pc + 2 ∧ v.reg 7 = s.reg 7

/-- CMP then JEQ jumps exactly if the registers are equal, and CMP then JNE exactly if they are not. Derived; rests
on 42_alu.md, CMP; 44_control_flow.md, JEQ and JNE; 70_reset_and_hazards.md, section 2, Hazards (marked derived
there). -/
def Obligations.CompareThenBranch : Prop :=
  ∀ (a b c : Byte) (ra rb rc : Reg) (s : State), a.toNat = ra.val → b.toNat = rb.val → c.toNat = rc.val →
    ∃ t u v, exec (.cmp a b) s = .next t ∧ exec (.jeq c) t = .next u ∧ exec (.jne c) t = .next v ∧
      (s.reg ra = s.reg rb → u.pc = s.reg rc ∧ v.pc = s.pc + 5) ∧
      (s.reg ra ≠ s.reg rb → u.pc = s.pc + 5 ∧ v.pc = s.reg rc)

/-- A PUSH or CALL into its own operand byte keeps its operand, and one into the next opcode changes the next fetch.
Derived; rests on 20_memory.md, section 5, Ordering and agents; 70_reset_and_hazards.md, section 2, Hazards;
92_eei_decisions.md D1, D10, D19. The timing is the spec's decision D19 and the order inside CALL its decision D10,
so the statement is derived. -/
def Obligations.StoresIntoCodeAreSeenByTheNextFetch : Prop :=
  ∀ (a : Byte) (r : Reg) (s : State), s.runState = .running → s.memRead (s.pc + 1) = a → a.toNat = r.val →
    (s.memRead s.pc = 0x45 →
      (s.reg 7 - 1 = s.pc + 1 → ∃ t, step s = .next t ∧ t.memRead (s.pc + 1) = s.reg r ∧ t.pc = s.pc + 2) ∧
      (s.reg 7 - 1 = s.pc + 2 → ∃ t, step s = .next t ∧ t.runState = .running ∧ t.pc = s.pc + 2 ∧
        t.memRead t.pc = s.reg r ∧ t.nextInstr = decode (s.reg r) (s.memRead (s.pc + 3)) (s.memRead (s.pc + 4)))) ∧
    (s.memRead s.pc = 0x50 →
      (s.reg 7 - 1 = s.pc + 1 → ∃ t, step s = .next t ∧ t.memRead (s.pc + 1) = s.pc + 2 ∧
        t.pc = if r = 7 then s.reg 7 - 1 else s.reg r) ∧
      ((r = 7 ∨ s.reg r = s.reg 7 - 1) → ∃ t, step s = .next t ∧ t.runState = .running ∧ t.pc = s.reg 7 - 1 ∧
        t.memRead t.pc = s.pc + 2 ∧ t.nextInstr = decode (s.pc + 2) (s.memRead (s.reg 7)) (s.memRead (s.reg 7 + 1))))

/-- The ALU refuses a third selector before writing, and no instruction ever gives it one. Derived; rests on
42_alu.md, section 1, The ALU; 92_eei_decisions.md D14, D20. That no instruction drives it so is the spec's decision
D20, so the statement is derived. -/
def Obligations.UnimplementedAluOpNeverOccurs : Prop :=
  (∀ (op sel : Byte) (ra rb : Reg) (s : State), runAlu op (.other sel) ra rb s =
    .next { s with runState := .faulted, faultCode := 2, faultAddr := s.pc, faultOp := op }) ∧
  (∀ (i : Instr) (s t : State), exec i s = .next t → t.faultCode = 2 → s.faultCode = 2) ∧
  (∀ s t : State, step s = .next t → t.faultCode = 2 → s.faultCode = 2)

/-- Reset, in any state, gives every piece of state its value of the reset table. Derived; rests on 10_state.md,
section 6, Reset values; 70_reset_and_hazards.md, section 1, Reset and boot; 92_eei_decisions.md D6, D7, D14. The
values of R0 to R6 and FL, the IDLE state and the record are the spec's decisions D6, D7 and D14, so the statement
is derived; it says nothing about the latches, whose value is the model's (log 2). -/
def Obligations.ResetGivesTheTableOfValues : Prop :=
  ∀ s : State,
    (∀ x : Byte, (applyInput .reset s).memRead x = 0) ∧
    (∀ r : Reg, (applyInput .reset s).reg r = if r = 7 then 0xF4 else 0) ∧
    (applyInput .reset s).pc = 0 ∧ (applyInput .reset s).fl = 0 ∧ (applyInput .reset s).runState = .idle ∧
    (applyInput .reset s).faultCode = 0 ∧ (applyInput .reset s).faultAddr = 0 ∧ (applyInput .reset s).faultOp = 0 ∧
    (applyInput .reset s).output = []

/-- start moves IDLE to RUNNING and does nothing in any other state. Derived; rests on 70_reset_and_hazards.md,
section 1, Reset and boot; 92_eei_decisions.md D7. It is the spec's decision D7, so the statement is derived. -/
def Obligations.StartMovesIdleToRunning : Prop :=
  ∀ s : State,
    (s.runState = .idle → applyInput .start s = { s with runState := .running }) ∧
    (s.runState ≠ .idle → applyInput .start s = s)

/-- The load port writes one cell in IDLE and is ignored in every other state. Derived; rests on 20_memory.md,
section 5, Ordering and agents; 10_state.md, section 7, Block interface; 92_eei_decisions.md D13. It is the spec's
decision D13, so the statement is derived. -/
def Obligations.LoadPortWritesOnlyInIdle : Prop :=
  ∀ (s : State) (a v : Byte),
    (s.runState = .idle → (applyInput (.load a v) s).memRead a = v ∧
      (∀ b : Byte, b ≠ a → (applyInput (.load a v) s).memRead b = s.memRead b) ∧
      { applyInput (.load a v) s with mem := s.mem } = s) ∧
    (s.runState ≠ .idle → applyInput (.load a v) s = s)

/-- An image of at most 256 bytes stands at 0x00 onward after loading, and runs from 0x00 after start. Derived;
rests on 70_reset_and_hazards.md, section 1, Reset and boot; 92_eei_decisions.md D7, D23. The length limit is the
spec's decision D23, so the statement is derived. -/
def Obligations.LoadedImageStandsFromTheEntry : Prop :=
  (∀ image : List Byte, image.length ≤ 256 → ∃ t, State.reset.loadImage image = .ok t ∧
    (∀ k : Byte, t.memRead k = image.getD k.toNat 0) ∧
    { t with mem := [] } = State.reset ∧
    (applyInput .start t).runState = .running ∧ (applyInput .start t).pc = 0 ∧
    (applyInput .start t).memRead 0 = image.getD 0 0 ∧
    (applyInput .start t).nextInstr = decode (image.getD 0 0) (image.getD 1 0) (image.getD 2 0) ∧
    ∃ u, step (applyInput .start t) = .next u) ∧
  (∀ (s : State) (image : List Byte), 256 < image.length → s.loadImage image = .error .imageTooLong)

/-- The status outputs encode the run state and the fault record, and tell the host how the run ended. Derived;
rests on 10_state.md, section 7, Block interface; 60_exceptions.md, section 2, Normal end; 92_eei_decisions.md D13.
The encoding is the spec's decision D13, so the statement is derived. -/
def Obligations.StatusOutputsTellTheEnd : Prop :=
  ∀ s : State,
    s.stateOut = (match s.runState with | .idle => 0 | .running => 1 | .halted => 2 | .faulted => 3) ∧
    s.faultCodeOut = s.faultCode ∧ s.faultAddrOut = s.faultAddr ∧ s.faultOpOut = s.faultOp ∧
    s.endStatus = (match s.runState with
      | .idle => none | .running => none | .halted => some .success | .faulted => some (.failure s.faultCode))

/-- The host prints an emitted byte as its unsigned decimal digits and a newline. Derived; rests on
41_load_output_halt.md, rendering of PRN; 92_eei_decisions.md D11, D21. It is the spec's decision D11 and D21, so
the statement is derived. -/
def Obligations.PrintedTextIsUnsignedDecimal : Prop :=
  ∀ v : Byte, (renderByte v).getLast? = some '\n' ∧
    Text.readByte 10 (renderByte v).dropLast = some v ∧
    ((renderByte v).dropLast.length = 1 ∨ (renderByte v).head? ≠ some '0')

/-- Assembling the printed text of a well-formed instruction gives the instruction back. Derived; rests on
30_encoding.md, section 5, Assembler syntax; 92_eei_decisions.md D18. The syntax is the spec's decision D18, so the
statement is derived. -/
def Obligations.AssemblingThePrintedTextGivesTheInstruction : Prop :=
  ∀ i : Instr, i.wf = true → Assembly.assemble (Assembly.print i) = some i
end

