-- ==== Sys2Proof/Laws/State.lean ====
section
/-! SUPPORT. One lemma per field of State per update, true by rfl, so that no later proof unfolds a record update, and the
register and memory reads of each update that leaves them alone. -/

namespace Sys2Proof.Machine.State

variable (s : State)

/-! ### `setReg` -/

@[simp] theorem setReg_regs (r : Reg) (v : Byte) : (s.setReg r v).regs = s.regs.set r.val v := rfl
@[simp] theorem setReg_pc (r : Reg) (v : Byte) : (s.setReg r v).pc = s.pc := rfl
@[simp] theorem setReg_fl (r : Reg) (v : Byte) : (s.setReg r v).fl = s.fl := rfl
@[simp] theorem setReg_mem (r : Reg) (v : Byte) : (s.setReg r v).mem = s.mem := rfl
@[simp] theorem setReg_runState (r : Reg) (v : Byte) : (s.setReg r v).runState = s.runState := rfl
@[simp] theorem setReg_faultCode (r : Reg) (v : Byte) : (s.setReg r v).faultCode = s.faultCode := rfl
@[simp] theorem setReg_faultAddr (r : Reg) (v : Byte) : (s.setReg r v).faultAddr = s.faultAddr := rfl
@[simp] theorem setReg_faultOp (r : Reg) (v : Byte) : (s.setReg r v).faultOp = s.faultOp := rfl
@[simp] theorem setReg_ir (r : Reg) (v : Byte) : (s.setReg r v).ir = s.ir := rfl
@[simp] theorem setReg_opa (r : Reg) (v : Byte) : (s.setReg r v).opa = s.opa := rfl
@[simp] theorem setReg_opb (r : Reg) (v : Byte) : (s.setReg r v).opb = s.opb := rfl
@[simp] theorem setReg_output (r : Reg) (v : Byte) : (s.setReg r v).output = s.output := rfl
@[simp] theorem memRead_setReg (r : Reg) (v : Byte) (x : Byte) : (s.setReg r v).memRead x = s.memRead x := rfl

/-! ### `setPc` -/

@[simp] theorem setPc_regs (v : Byte) : (s.setPc v).regs = s.regs := rfl
@[simp] theorem setPc_pc (v : Byte) : (s.setPc v).pc = v := rfl
@[simp] theorem setPc_fl (v : Byte) : (s.setPc v).fl = s.fl := rfl
@[simp] theorem setPc_mem (v : Byte) : (s.setPc v).mem = s.mem := rfl
@[simp] theorem setPc_runState (v : Byte) : (s.setPc v).runState = s.runState := rfl
@[simp] theorem setPc_faultCode (v : Byte) : (s.setPc v).faultCode = s.faultCode := rfl
@[simp] theorem setPc_faultAddr (v : Byte) : (s.setPc v).faultAddr = s.faultAddr := rfl
@[simp] theorem setPc_faultOp (v : Byte) : (s.setPc v).faultOp = s.faultOp := rfl
@[simp] theorem setPc_ir (v : Byte) : (s.setPc v).ir = s.ir := rfl
@[simp] theorem setPc_opa (v : Byte) : (s.setPc v).opa = s.opa := rfl
@[simp] theorem setPc_opb (v : Byte) : (s.setPc v).opb = s.opb := rfl
@[simp] theorem setPc_output (v : Byte) : (s.setPc v).output = s.output := rfl
@[simp] theorem reg_setPc (v : Byte) (q : Reg) : (s.setPc v).reg q = s.reg q := rfl
@[simp] theorem memRead_setPc (v : Byte) (x : Byte) : (s.setPc v).memRead x = s.memRead x := rfl

/-! ### `setFl` -/

@[simp] theorem setFl_regs (v : Byte) : (s.setFl v).regs = s.regs := rfl
@[simp] theorem setFl_pc (v : Byte) : (s.setFl v).pc = s.pc := rfl
@[simp] theorem setFl_fl (v : Byte) : (s.setFl v).fl = v := rfl
@[simp] theorem setFl_mem (v : Byte) : (s.setFl v).mem = s.mem := rfl
@[simp] theorem setFl_runState (v : Byte) : (s.setFl v).runState = s.runState := rfl
@[simp] theorem setFl_faultCode (v : Byte) : (s.setFl v).faultCode = s.faultCode := rfl
@[simp] theorem setFl_faultAddr (v : Byte) : (s.setFl v).faultAddr = s.faultAddr := rfl
@[simp] theorem setFl_faultOp (v : Byte) : (s.setFl v).faultOp = s.faultOp := rfl
@[simp] theorem setFl_ir (v : Byte) : (s.setFl v).ir = s.ir := rfl
@[simp] theorem setFl_opa (v : Byte) : (s.setFl v).opa = s.opa := rfl
@[simp] theorem setFl_opb (v : Byte) : (s.setFl v).opb = s.opb := rfl
@[simp] theorem setFl_output (v : Byte) : (s.setFl v).output = s.output := rfl
@[simp] theorem reg_setFl (v : Byte) (q : Reg) : (s.setFl v).reg q = s.reg q := rfl
@[simp] theorem memRead_setFl (v : Byte) (x : Byte) : (s.setFl v).memRead x = s.memRead x := rfl

/-! ### `setRunState` -/

@[simp] theorem setRunState_regs (r : RunState) : (s.setRunState r).regs = s.regs := rfl
@[simp] theorem setRunState_pc (r : RunState) : (s.setRunState r).pc = s.pc := rfl
@[simp] theorem setRunState_fl (r : RunState) : (s.setRunState r).fl = s.fl := rfl
@[simp] theorem setRunState_mem (r : RunState) : (s.setRunState r).mem = s.mem := rfl
@[simp] theorem setRunState_runState (r : RunState) : (s.setRunState r).runState = r := rfl
@[simp] theorem setRunState_faultCode (r : RunState) : (s.setRunState r).faultCode = s.faultCode := rfl
@[simp] theorem setRunState_faultAddr (r : RunState) : (s.setRunState r).faultAddr = s.faultAddr := rfl
@[simp] theorem setRunState_faultOp (r : RunState) : (s.setRunState r).faultOp = s.faultOp := rfl
@[simp] theorem setRunState_ir (r : RunState) : (s.setRunState r).ir = s.ir := rfl
@[simp] theorem setRunState_opa (r : RunState) : (s.setRunState r).opa = s.opa := rfl
@[simp] theorem setRunState_opb (r : RunState) : (s.setRunState r).opb = s.opb := rfl
@[simp] theorem setRunState_output (r : RunState) : (s.setRunState r).output = s.output := rfl
@[simp] theorem reg_setRunState (r : RunState) (q : Reg) : (s.setRunState r).reg q = s.reg q := rfl
@[simp] theorem memRead_setRunState (r : RunState) (x : Byte) : (s.setRunState r).memRead x = s.memRead x := rfl

/-! ### `memWrite` -/

@[simp] theorem memWrite_regs (a v : Byte) : (s.memWrite a v).regs = s.regs := rfl
@[simp] theorem memWrite_pc (a v : Byte) : (s.memWrite a v).pc = s.pc := rfl
@[simp] theorem memWrite_fl (a v : Byte) : (s.memWrite a v).fl = s.fl := rfl
@[simp] theorem memWrite_mem (a v : Byte) : (s.memWrite a v).mem = s.mem.write a v := rfl
@[simp] theorem memWrite_runState (a v : Byte) : (s.memWrite a v).runState = s.runState := rfl
@[simp] theorem memWrite_faultCode (a v : Byte) : (s.memWrite a v).faultCode = s.faultCode := rfl
@[simp] theorem memWrite_faultAddr (a v : Byte) : (s.memWrite a v).faultAddr = s.faultAddr := rfl
@[simp] theorem memWrite_faultOp (a v : Byte) : (s.memWrite a v).faultOp = s.faultOp := rfl
@[simp] theorem memWrite_ir (a v : Byte) : (s.memWrite a v).ir = s.ir := rfl
@[simp] theorem memWrite_opa (a v : Byte) : (s.memWrite a v).opa = s.opa := rfl
@[simp] theorem memWrite_opb (a v : Byte) : (s.memWrite a v).opb = s.opb := rfl
@[simp] theorem memWrite_output (a v : Byte) : (s.memWrite a v).output = s.output := rfl
@[simp] theorem reg_memWrite (a v : Byte) (q : Reg) : (s.memWrite a v).reg q = s.reg q := rfl

/-! ### `emit` -/

@[simp] theorem emit_regs (v : Byte) : (s.emit v).regs = s.regs := rfl
@[simp] theorem emit_pc (v : Byte) : (s.emit v).pc = s.pc := rfl
@[simp] theorem emit_fl (v : Byte) : (s.emit v).fl = s.fl := rfl
@[simp] theorem emit_mem (v : Byte) : (s.emit v).mem = s.mem := rfl
@[simp] theorem emit_runState (v : Byte) : (s.emit v).runState = s.runState := rfl
@[simp] theorem emit_faultCode (v : Byte) : (s.emit v).faultCode = s.faultCode := rfl
@[simp] theorem emit_faultAddr (v : Byte) : (s.emit v).faultAddr = s.faultAddr := rfl
@[simp] theorem emit_faultOp (v : Byte) : (s.emit v).faultOp = s.faultOp := rfl
@[simp] theorem emit_ir (v : Byte) : (s.emit v).ir = s.ir := rfl
@[simp] theorem emit_opa (v : Byte) : (s.emit v).opa = s.opa := rfl
@[simp] theorem emit_opb (v : Byte) : (s.emit v).opb = s.opb := rfl
@[simp] theorem emit_output (v : Byte) : (s.emit v).output = s.output ++ [v] := rfl
@[simp] theorem reg_emit (v : Byte) (q : Reg) : (s.emit v).reg q = s.reg q := rfl
@[simp] theorem memRead_emit (v : Byte) (x : Byte) : (s.emit v).memRead x = s.memRead x := rfl

/-! ### `raise` -/

@[simp] theorem raise_regs (f : Fault) (a op : Byte) : (s.raise f a op).regs = s.regs := rfl
@[simp] theorem raise_pc (f : Fault) (a op : Byte) : (s.raise f a op).pc = s.pc := rfl
@[simp] theorem raise_fl (f : Fault) (a op : Byte) : (s.raise f a op).fl = s.fl := rfl
@[simp] theorem raise_mem (f : Fault) (a op : Byte) : (s.raise f a op).mem = s.mem := rfl
@[simp] theorem raise_runState (f : Fault) (a op : Byte) : (s.raise f a op).runState = .faulted := rfl
@[simp] theorem raise_faultCode (f : Fault) (a op : Byte) : (s.raise f a op).faultCode = f.code := rfl
@[simp] theorem raise_faultAddr (f : Fault) (a op : Byte) : (s.raise f a op).faultAddr = a := rfl
@[simp] theorem raise_faultOp (f : Fault) (a op : Byte) : (s.raise f a op).faultOp = op := rfl
@[simp] theorem raise_ir (f : Fault) (a op : Byte) : (s.raise f a op).ir = s.ir := rfl
@[simp] theorem raise_opa (f : Fault) (a op : Byte) : (s.raise f a op).opa = s.opa := rfl
@[simp] theorem raise_opb (f : Fault) (a op : Byte) : (s.raise f a op).opb = s.opb := rfl
@[simp] theorem raise_output (f : Fault) (a op : Byte) : (s.raise f a op).output = s.output := rfl
@[simp] theorem reg_raise (f : Fault) (a op : Byte) (q : Reg) : (s.raise f a op).reg q = s.reg q := rfl
@[simp] theorem memRead_raise (f : Fault) (a op : Byte) (x : Byte) : (s.raise f a op).memRead x = s.memRead x := rfl

/-! ### `fetch` -/

@[simp] theorem fetch_regs : s.fetch.regs = s.regs := rfl
@[simp] theorem fetch_pc : s.fetch.pc = s.pc := rfl
@[simp] theorem fetch_fl : s.fetch.fl = s.fl := rfl
@[simp] theorem fetch_mem : s.fetch.mem = s.mem := rfl
@[simp] theorem fetch_runState : s.fetch.runState = s.runState := rfl
@[simp] theorem fetch_faultCode : s.fetch.faultCode = s.faultCode := rfl
@[simp] theorem fetch_faultAddr : s.fetch.faultAddr = s.faultAddr := rfl
@[simp] theorem fetch_faultOp : s.fetch.faultOp = s.faultOp := rfl
@[simp] theorem fetch_ir : s.fetch.ir = s.memRead s.pc := rfl
@[simp] theorem fetch_opa : s.fetch.opa = s.memRead (s.pc + 1) := rfl
@[simp] theorem fetch_opb : s.fetch.opb = s.memRead (s.pc + 2) := rfl
@[simp] theorem fetch_output : s.fetch.output = s.output := rfl
@[simp] theorem reg_fetch (q : Reg) : s.fetch.reg q = s.reg q := rfl
@[simp] theorem memRead_fetch (x : Byte) : s.fetch.memRead x = s.memRead x := rfl

/-! ### `branch` -/

@[simp] theorem branch_regs (taken : Bool) (r : Reg) : (s.branch taken r).regs = s.regs := rfl
@[simp] theorem branch_pc (taken : Bool) (r : Reg) : (s.branch taken r).pc = if taken then s.reg r else s.pc + 2 := rfl
@[simp] theorem branch_fl (taken : Bool) (r : Reg) : (s.branch taken r).fl = s.fl := rfl
@[simp] theorem branch_mem (taken : Bool) (r : Reg) : (s.branch taken r).mem = s.mem := rfl
@[simp] theorem branch_runState (taken : Bool) (r : Reg) : (s.branch taken r).runState = s.runState := rfl
@[simp] theorem branch_faultCode (taken : Bool) (r : Reg) : (s.branch taken r).faultCode = s.faultCode := rfl
@[simp] theorem branch_faultAddr (taken : Bool) (r : Reg) : (s.branch taken r).faultAddr = s.faultAddr := rfl
@[simp] theorem branch_faultOp (taken : Bool) (r : Reg) : (s.branch taken r).faultOp = s.faultOp := rfl
@[simp] theorem branch_ir (taken : Bool) (r : Reg) : (s.branch taken r).ir = s.ir := rfl
@[simp] theorem branch_opa (taken : Bool) (r : Reg) : (s.branch taken r).opa = s.opa := rfl
@[simp] theorem branch_opb (taken : Bool) (r : Reg) : (s.branch taken r).opb = s.opb := rfl
@[simp] theorem branch_output (taken : Bool) (r : Reg) : (s.branch taken r).output = s.output := rfl
@[simp] theorem reg_branch (taken : Bool) (r : Reg) (q : Reg) : (s.branch taken r).reg q = s.reg q := rfl
@[simp] theorem memRead_branch (taken : Bool) (r : Reg) (x : Byte) : (s.branch taken r).memRead x = s.memRead x := rfl

/-! ### Registers -/

/-- A register reads back what was written to it, and a write leaves every other register alone (spec/10_state.md R20). -/
@[simp] theorem reg_setReg (r q : Reg) (v : Byte) : (s.setReg r v).reg q = if r = q then v else s.reg q := by
  simp only [reg, setReg, Vector.getElem_set, Fin.ext_iff]

/-- Two states with the same registers have equal register files. -/
theorem regs_ext {s t : State} (h : ∀ r : Reg, s.reg r = t.reg r) : s.regs = t.regs :=
  Vector.ext fun k hk => h ⟨k, hk⟩

/-! ### Push and pop -/

@[simp] theorem push_regs (v : Byte) : (s.push v).regs = s.regs.set sp.val (s.reg sp - 1) := rfl
@[simp] theorem push_pc (v : Byte) : (s.push v).pc = s.pc := rfl
@[simp] theorem push_fl (v : Byte) : (s.push v).fl = s.fl := rfl
@[simp] theorem push_mem (v : Byte) : (s.push v).mem = s.mem.write (s.reg sp - 1) v := by simp [push]
@[simp] theorem push_runState (v : Byte) : (s.push v).runState = s.runState := rfl
@[simp] theorem push_faultCode (v : Byte) : (s.push v).faultCode = s.faultCode := rfl
@[simp] theorem push_faultAddr (v : Byte) : (s.push v).faultAddr = s.faultAddr := rfl
@[simp] theorem push_faultOp (v : Byte) : (s.push v).faultOp = s.faultOp := rfl
@[simp] theorem push_ir (v : Byte) : (s.push v).ir = s.ir := rfl
@[simp] theorem push_opa (v : Byte) : (s.push v).opa = s.opa := rfl
@[simp] theorem push_opb (v : Byte) : (s.push v).opb = s.opb := rfl
@[simp] theorem push_output (v : Byte) : (s.push v).output = s.output := rfl

@[simp] theorem pop_fst : s.pop.1 = s.memRead (s.reg sp) := rfl
@[simp] theorem pop_regs : s.pop.2.regs = s.regs.set sp.val (s.reg sp + 1) := rfl
@[simp] theorem pop_pc : s.pop.2.pc = s.pc := rfl
@[simp] theorem pop_fl : s.pop.2.fl = s.fl := rfl
@[simp] theorem pop_mem : s.pop.2.mem = s.mem := rfl
@[simp] theorem pop_runState : s.pop.2.runState = s.runState := rfl
@[simp] theorem pop_faultCode : s.pop.2.faultCode = s.faultCode := rfl
@[simp] theorem pop_faultAddr : s.pop.2.faultAddr = s.faultAddr := rfl
@[simp] theorem pop_faultOp : s.pop.2.faultOp = s.faultOp := rfl
@[simp] theorem pop_ir : s.pop.2.ir = s.ir := rfl
@[simp] theorem pop_opa : s.pop.2.opa = s.opa := rfl
@[simp] theorem pop_opb : s.pop.2.opb = s.opb := rfl
@[simp] theorem pop_output : s.pop.2.output = s.output := rfl

/-- What the registers hold after a push (spec/20_memory.md R54). -/
@[simp] theorem reg_push (v : Byte) (q : Reg) : (s.push v).reg q = if sp = q then s.reg sp - 1 else s.reg q := by
  simp [push]

/-- What the registers hold after a pop (spec/20_memory.md R55). -/
@[simp] theorem reg_pop (q : Reg) : s.pop.2.reg q = if sp = q then s.reg sp + 1 else s.reg q := by
  simp [pop]

@[simp] theorem memRead_pop (x : Byte) : s.pop.2.memRead x = s.memRead x := rfl

end Sys2Proof.Machine.State
end

