-- ==== Sys2Proof/Laws/Memory.lean ====
section
/-! SUPPORT. The laws of memory: a read after a write, and the canonical form that every memory operation keeps. -/

namespace Sys2Proof.Machine

namespace Memory

theorem read_filter_ne (m : Memory) (a b : Byte) (h : b ≠ a) :
    Memory.read (m.filter fun c => c.1 != a.toNat) b = Memory.read m b := by
  have hab : a.toNat ≠ b.toNat := fun e => h (BitVec.eq_of_toNat_eq e.symm)
  induction m with
  | nil => rfl
  | cons c rest ih =>
    by_cases hc : c.1 = a.toNat
    · simp [hc, Memory.read, hab, ih]
    · simp [hc, Memory.read, ih]

theorem read_filter_self (m : Memory) (a : Byte) :
    Memory.read (m.filter fun c => c.1 != a.toNat) a = Config.memReset := by
  induction m with
  | nil => rfl
  | cons c rest ih =>
    by_cases hc : c.1 = a.toNat
    · simp [hc, ih]
    · simp [hc, Memory.read, ih]

theorem read_insert_ne (m : Memory) (c : Host.Cell) (b : Byte) (h : c.1 ≠ b.toNat) :
    Memory.read (Memory.insert c m) b = Memory.read m b := by
  induction m with
  | nil => simp [Memory.insert, Memory.read, h]
  | cons d rest ih =>
    by_cases hd : c.1 < d.1
    · simp [Memory.insert, hd, Memory.read, h]
    · simp [Memory.insert, hd, Memory.read, ih]

theorem read_insert_self (m : Memory) (a v : Byte) (h : ∀ c ∈ m, c.1 ≠ a.toNat) :
    Memory.read (Memory.insert (a.toNat, v) m) a = v := by
  induction m with
  | nil => simp [Memory.insert, Memory.read]
  | cons d rest ih =>
    have hd : d.1 ≠ a.toNat := h d (by simp)
    have hr : ∀ c ∈ rest, c.1 ≠ a.toNat := fun c hc => h c (by simp [hc])
    by_cases hlt : a.toNat < d.1
    · simp [Memory.insert, hlt, Memory.read]
    · simp [Memory.insert, hlt, Memory.read, hd, ih hr]

/-- What every cell reads as after a write (spec/20_memory.md R51, R52). It holds of every list, canonical or not. -/
theorem read_write (m : Memory) (a b v : Byte) :
    Memory.read (Memory.write m a v) b = if b = a then v else Memory.read m b := by
  by_cases hb : b = a
  · subst hb
    by_cases hv : v = Config.memReset
    · simp [Memory.write, hv, read_filter_self]
    · rw [if_pos rfl, Memory.write, if_neg hv]
      exact read_insert_self _ _ _ (by simp)
  · have hab : a.toNat ≠ b.toNat := fun e => hb (BitVec.eq_of_toNat_eq e.symm)
    by_cases hv : v = Config.memReset
    · simp [Memory.write, hv, hb, read_filter_ne]
    · rw [if_neg hb, Memory.write, if_neg hv, read_insert_ne _ _ _ hab, read_filter_ne _ _ _ hb]

theorem mem_insert {m : Memory} {c d : Host.Cell} : d ∈ Memory.insert c m ↔ d = c ∨ d ∈ m := by
  induction m with
  | nil => simp [Memory.insert]
  | cons e rest ih =>
    by_cases h : c.1 < e.1
    · simp [Memory.insert, h]
    · simp only [Memory.insert, h, if_false, List.mem_cons, ih]
      tauto

theorem insert_wf {m : Memory} {c : Host.Cell} (hm : Memory.wf m) (hc : c.1 < 256 ∧ c.2 ≠ Config.memReset)
    (hne : ∀ d ∈ m, d.1 ≠ c.1) : Memory.wf (Memory.insert c m) := by
  refine ⟨?_, fun d hd => ?_⟩
  · obtain ⟨hp, -⟩ := hm
    induction m with
    | nil => simp [Memory.insert]
    | cons e rest ih =>
      rw [List.pairwise_cons] at hp
      by_cases h : c.1 < e.1
      · simp only [Memory.insert, h, if_true, List.pairwise_cons, List.mem_cons]
        exact ⟨by rintro d (rfl | hd); exacts [h, h.trans (hp.1 d hd)], hp⟩
      · have he : e.1 < c.1 := lt_of_le_of_ne (not_lt.mp h) (hne e (by simp))
        simp only [Memory.insert, h, if_false, List.pairwise_cons, mem_insert]
        exact ⟨by rintro d (rfl | hd); exacts [he, hp.1 d hd], ih (fun d hd => hne d (by simp [hd])) hp.2⟩
  · rcases mem_insert.mp hd with rfl | hd
    exacts [hc, hm.2 d hd]

/-- A write keeps the canonical form. -/
theorem write_wf {m : Memory} (hm : Memory.wf m) (a v : Byte) : Memory.wf (Memory.write m a v) := by
  have hf : Memory.wf (m.filter fun c => c.1 != a.toNat) :=
    ⟨hm.1.sublist List.filter_sublist, fun c hc => hm.2 c (List.mem_filter.mp hc).1⟩
  by_cases hv : v = Config.memReset
  · simpa [Memory.write, hv] using hf
  · rw [Memory.write, if_neg hv]
    exact insert_wf hf ⟨a.isLt, hv⟩ (by simp)

/-- Reset memory is in canonical form. -/
theorem reset_wf : Memory.wf State.reset.mem := by decide

end Memory

namespace State

variable (s : State)

/-- What every cell reads as after a memory write (R51, R52). -/
@[simp] theorem memRead_memWrite (a b v : Byte) : (s.memWrite a v).memRead b = if b = a then v else s.memRead b :=
  Memory.read_write s.mem a b v

/-- What every cell reads as after a push (R54). -/
@[simp] theorem memRead_push (v b : Byte) :
    (s.push v).memRead b = if b = s.reg sp - 1 then v else s.memRead b := by
  simp [push]

/-- A memory write, a push and a load-port write keep the canonical form. -/
theorem memWrite_wf {s : State} (h : s.mem.wf) (a v : Byte) : (s.memWrite a v).mem.wf := Memory.write_wf h a v

theorem push_wf {s : State} (h : s.mem.wf) (v : Byte) : (s.push v).mem.wf := by
  rw [push_mem]; exact Memory.write_wf h _ _

theorem loadPort_wf {s : State} (h : s.mem.wf) (a v : Byte) : (s.loadPort a v).mem.wf := by
  unfold loadPort; split <;> first | exact memWrite_wf h a v | exact h

theorem storeBytes_wf {s : State} (h : s.mem.wf) (a b0 b1 b2 : Byte) : (s.storeBytes a b0 b1 b2).mem.wf :=
  memWrite_wf (memWrite_wf (memWrite_wf h _ _) _ _) _ _

end State

end Sys2Proof.Machine
end

