-- ==== Sys2Proof/Laws/Ops.lean ====
section
/-! SUPPORT. One lemma per shared operation of the meanings: what the register check, the end of an instruction and the
ALU can do. The proofs about instructions cite these instead of unfolding the operations. -/

namespace Sys2Proof.Machine

theorem isReg_iff (b : Byte) : isReg b = true ↔ b.toNat < 8 := by simp [isReg]

/-- A byte that names register `r` is read as `r`. -/
theorem regOf_eq {b : Byte} {r : Reg} (h : b.toNat = r.val) : regOf b = some r := by
  simp [regOf, h]

/-- `regOf` reads exactly the byte's value. -/
theorem regOf_eq_some {b : Byte} {r : Reg} : regOf b = some r ↔ b.toNat = r.val := by
  refine ⟨fun h => ?_, regOf_eq⟩
  unfold regOf at h
  split at h
  · cases h; rfl
  · cases h

theorem regOf_eq_none {b : Byte} : regOf b = none ↔ 8 ≤ b.toNat := by simp [regOf]

/-- The register check on a byte that names a register goes on with it. -/
theorem withReg_of_reg {op b : Byte} {s : State} {k : Reg → Result} {r : Reg} (h : b.toNat = r.val) :
    withReg op b s k = k r := by
  simp [withReg, regOf_eq h]

/-- The register check on any other byte raises IllegalRegister (spec/40_controller.md R103). -/
theorem withReg_of_ge {op b : Byte} {s : State} {k : Reg → Result} (h : 8 ≤ b.toNat) :
    withReg op b s k = .next (s.raise .illegalRegister s.pc op) := by
  simp [withReg, regOf_eq_none.mpr h]

/-- Everything the register check can do. -/
theorem withReg_cases (op b : Byte) (s : State) (k : Reg → Result) :
    (∃ r : Reg, b.toNat = r.val ∧ withReg op b s k = k r) ∨
    (8 ≤ b.toNat ∧ withReg op b s k = .next (s.raise .illegalRegister s.pc op)) := by
  by_cases h : b.toNat < 8
  · exact .inl ⟨⟨b.toNat, h⟩, rfl, withReg_of_reg rfl⟩
  · exact .inr ⟨not_lt.mp h, withReg_of_ge (not_lt.mp h)⟩

theorem withRegs_of_reg {op a b : Byte} {s : State} {k : Reg → Reg → Result} {ra rb : Reg}
    (ha : a.toNat = ra.val) (hb : b.toNat = rb.val) : withRegs op a b s k = k ra rb := by
  simp [withRegs, withReg_of_reg ha, withReg_of_reg hb]

theorem withRegs_of_ge {op a b : Byte} {s : State} {k : Reg → Reg → Result} (h : 8 ≤ a.toNat ∨ 8 ≤ b.toNat) :
    withRegs op a b s k = .next (s.raise .illegalRegister s.pc op) := by
  unfold withRegs
  obtain ⟨r, hr, e⟩ | ⟨-, e⟩ := withReg_cases op a s fun ra => withReg op b s fun rb => k ra rb
  · rw [e]
    rcases h with h | h
    · have := r.isLt; omega
    · exact withReg_of_ge h
  · exact e

/-- Everything the check of two register operands can do. -/
theorem withRegs_cases (op a b : Byte) (s : State) (k : Reg → Reg → Result) :
    (∃ ra rb : Reg, a.toNat = ra.val ∧ b.toNat = rb.val ∧ withRegs op a b s k = k ra rb) ∨
    ((8 ≤ a.toNat ∨ 8 ≤ b.toNat) ∧ withRegs op a b s k = .next (s.raise .illegalRegister s.pc op)) := by
  by_cases h : 8 ≤ a.toNat ∨ 8 ≤ b.toNat
  · exact .inr ⟨h, withRegs_of_ge h⟩
  · push Not at h
    exact .inl ⟨⟨a.toNat, h.1⟩, ⟨b.toNat, h.2⟩, rfl, rfl, withRegs_of_reg rfl rfl⟩

/-- After a handler of an opcode with `P = 0`, `pc` is `1 + N` past the instruction (R105). -/
theorem complete_of_auto {op : Byte} (h : Opcode.setsPc op = false) (s t : State) :
    complete op s t = .next (t.setPc (s.pc + (1 + Opcode.operandCount op))) := by
  simp [complete, State.advance, h]

/-- After a handler of an opcode with `P = 1`, `pc` is as the handler set it (R106). -/
theorem complete_of_setsPc {op : Byte} (h : Opcode.setsPc op = true) (s t : State) : complete op s t = .next t := by
  simp [complete, State.advance, h]

@[simp] theorem complete_ldi (s t : State) : complete Opcode.ldi s t = .next (t.setPc (s.pc + 3)) := rfl
@[simp] theorem complete_prn (s t : State) : complete Opcode.prn s t = .next (t.setPc (s.pc + 2)) := rfl
@[simp] theorem complete_hlt (s t : State) : complete Opcode.hlt s t = .next (t.setPc (s.pc + 1)) := rfl
@[simp] theorem complete_mul (s t : State) : complete Opcode.mul s t = .next (t.setPc (s.pc + 3)) := rfl
@[simp] theorem complete_add (s t : State) : complete Opcode.add s t = .next (t.setPc (s.pc + 3)) := rfl
@[simp] theorem complete_push (s t : State) : complete Opcode.push s t = .next (t.setPc (s.pc + 2)) := rfl
@[simp] theorem complete_pop (s t : State) : complete Opcode.pop s t = .next (t.setPc (s.pc + 2)) := rfl
@[simp] theorem complete_cmp (s t : State) : complete Opcode.cmp s t = .next (t.setPc (s.pc + 3)) := rfl
@[simp] theorem complete_call (s t : State) : complete Opcode.call s t = .next t := rfl
@[simp] theorem complete_ret (s t : State) : complete Opcode.ret s t = .next t := rfl
@[simp] theorem complete_jmp (s t : State) : complete Opcode.jmp s t = .next t := rfl
@[simp] theorem complete_jeq (s t : State) : complete Opcode.jeq s t = .next t := rfl
@[simp] theorem complete_jne (s t : State) : complete Opcode.jne s t = .next t := rfl

/-- The ALU with its two legal selectors writes the sum, or the low byte of the product (R140, R145). -/
@[simp] theorem runAlu_add (op : Byte) (ra rb : Reg) (s : State) :
    runAlu op .add ra rb s = complete op s (s.setReg ra (s.reg ra + s.reg rb)) := rfl
@[simp] theorem runAlu_mul (op : Byte) (ra rb : Reg) (s : State) :
    runAlu op .mul ra rb s = complete op s (s.setReg ra (s.reg ra * s.reg rb)) := rfl

/-- The flags byte in numbers (R144). -/
theorem compareFlags_eq (va vb : Byte) :
    compareFlags va vb = if va.toNat < vb.toNat then 4 else if vb.toNat < va.toNat then 2 else 1 := by
  unfold compareFlags
  rcases lt_trichotomy va.toNat vb.toNat with h | h | h
  · have hv : va ≠ vb := fun e => by simp [e] at h
    simp [BitVec.lt_def, h, h.not_gt, hv]
  · have hv : va = vb := BitVec.eq_of_toNat_eq h
    simp [hv]
  · have hv : va ≠ vb := fun e => by simp [e] at h
    simp [BitVec.lt_def, h, h.not_gt, hv]

end Sys2Proof.Machine
end

