-- ==== Sys2Proof/Laws/PerInstr.lean ====
section
/-! SUPPORT. Facts about every instruction as syntax, one lemma per constructor (LAWS.json). -/

/-- The encoding of an instruction is its opcode byte followed by as many operand bytes as its format has, and its register
fields are among them (spec/30_encoding.md R70, R72). -/
def Sys2Proof.Laws.EncodingShape.Statement (i : Sys2Proof.Instr) : Prop :=
  (Sys2Proof.encode i).head? = some i.opcode ∧ (Sys2Proof.encode i).length = i.format.length ∧
    i.regFields <+: (Sys2Proof.encode i).tail

theorem Sys2Proof.Laws.EncodingShape.ldi (a imm : Sys2Proof.Byte) : Sys2Proof.Laws.EncodingShape.Statement (.ldi a imm) := by
  simp [Statement, Sys2Proof.encode, Sys2Proof.Instr.opcode, Sys2Proof.Instr.format, Sys2Proof.Format.length, Sys2Proof.Instr.regFields]

theorem Sys2Proof.Laws.EncodingShape.prn (a : Sys2Proof.Byte) : Sys2Proof.Laws.EncodingShape.Statement (.prn a) := by
  simp [Statement, Sys2Proof.encode, Sys2Proof.Instr.opcode, Sys2Proof.Instr.format, Sys2Proof.Format.length, Sys2Proof.Instr.regFields]

theorem Sys2Proof.Laws.EncodingShape.hlt : Sys2Proof.Laws.EncodingShape.Statement .hlt := by
  simp [Statement, Sys2Proof.encode, Sys2Proof.Instr.opcode, Sys2Proof.Instr.format, Sys2Proof.Format.length, Sys2Proof.Instr.regFields]

theorem Sys2Proof.Laws.EncodingShape.mul (a b : Sys2Proof.Byte) : Sys2Proof.Laws.EncodingShape.Statement (.mul a b) := by
  simp [Statement, Sys2Proof.encode, Sys2Proof.Instr.opcode, Sys2Proof.Instr.format, Sys2Proof.Format.length, Sys2Proof.Instr.regFields]

theorem Sys2Proof.Laws.EncodingShape.add (a b : Sys2Proof.Byte) : Sys2Proof.Laws.EncodingShape.Statement (.add a b) := by
  simp [Statement, Sys2Proof.encode, Sys2Proof.Instr.opcode, Sys2Proof.Instr.format, Sys2Proof.Format.length, Sys2Proof.Instr.regFields]

theorem Sys2Proof.Laws.EncodingShape.push (a : Sys2Proof.Byte) : Sys2Proof.Laws.EncodingShape.Statement (.push a) := by
  simp [Statement, Sys2Proof.encode, Sys2Proof.Instr.opcode, Sys2Proof.Instr.format, Sys2Proof.Format.length, Sys2Proof.Instr.regFields]

theorem Sys2Proof.Laws.EncodingShape.pop (a : Sys2Proof.Byte) : Sys2Proof.Laws.EncodingShape.Statement (.pop a) := by
  simp [Statement, Sys2Proof.encode, Sys2Proof.Instr.opcode, Sys2Proof.Instr.format, Sys2Proof.Format.length, Sys2Proof.Instr.regFields]

theorem Sys2Proof.Laws.EncodingShape.call (a : Sys2Proof.Byte) : Sys2Proof.Laws.EncodingShape.Statement (.call a) := by
  simp [Statement, Sys2Proof.encode, Sys2Proof.Instr.opcode, Sys2Proof.Instr.format, Sys2Proof.Format.length, Sys2Proof.Instr.regFields]

theorem Sys2Proof.Laws.EncodingShape.ret : Sys2Proof.Laws.EncodingShape.Statement .ret := by
  simp [Statement, Sys2Proof.encode, Sys2Proof.Instr.opcode, Sys2Proof.Instr.format, Sys2Proof.Format.length, Sys2Proof.Instr.regFields]

theorem Sys2Proof.Laws.EncodingShape.cmp (a b : Sys2Proof.Byte) : Sys2Proof.Laws.EncodingShape.Statement (.cmp a b) := by
  simp [Statement, Sys2Proof.encode, Sys2Proof.Instr.opcode, Sys2Proof.Instr.format, Sys2Proof.Format.length, Sys2Proof.Instr.regFields]

theorem Sys2Proof.Laws.EncodingShape.jmp (a : Sys2Proof.Byte) : Sys2Proof.Laws.EncodingShape.Statement (.jmp a) := by
  simp [Statement, Sys2Proof.encode, Sys2Proof.Instr.opcode, Sys2Proof.Instr.format, Sys2Proof.Format.length, Sys2Proof.Instr.regFields]

theorem Sys2Proof.Laws.EncodingShape.jeq (a : Sys2Proof.Byte) : Sys2Proof.Laws.EncodingShape.Statement (.jeq a) := by
  simp [Statement, Sys2Proof.encode, Sys2Proof.Instr.opcode, Sys2Proof.Instr.format, Sys2Proof.Format.length, Sys2Proof.Instr.regFields]

theorem Sys2Proof.Laws.EncodingShape.jne (a : Sys2Proof.Byte) : Sys2Proof.Laws.EncodingShape.Statement (.jne a) := by
  simp [Statement, Sys2Proof.encode, Sys2Proof.Instr.opcode, Sys2Proof.Instr.format, Sys2Proof.Format.length, Sys2Proof.Instr.regFields]
end

