-- ==== Sys2Proof/Laws/Step.lean ====
section
/-! SUPPORT. What the decoder and a step can do, said once; the proofs about steps cite these instead of unfolding `decode`
and `step`. -/

namespace Sys2Proof

/-- What holds of every legal opcode byte holds of each of the 13, by its name (spec/30_encoding.md R76). -/
theorem forall_legal {P : Byte → Prop} :
    (∀ op ∈ Opcode.legal, P op) ↔
      P Opcode.ldi ∧ P Opcode.prn ∧ P Opcode.hlt ∧ P Opcode.mul ∧ P Opcode.add ∧ P Opcode.push ∧ P Opcode.pop ∧
        P Opcode.call ∧ P Opcode.ret ∧ P Opcode.cmp ∧ P Opcode.jmp ∧ P Opcode.jeq ∧ P Opcode.jne := by
  simp [Opcode.legal]

/-- A legal opcode byte decodes. -/
theorem decode_of_legal {op : Byte} (h : op ∈ Opcode.legal) (a b : Byte) : ∃ i, decode op a b = .ok i := by
  have each : ∀ o ∈ Opcode.legal, ∃ i, decode o a b = .ok i := forall_legal.mpr (by and_intros <;> exact ⟨_, rfl⟩)
  exact each op h

/-- Any other byte is refused by name. -/
theorem decode_of_not_legal {op : Byte} (h : op ∉ Opcode.legal) (a b : Byte) :
    decode op a b = .error (.illegalOpcode op) := by
  have differs : ∀ o ∈ Opcode.legal, op ≠ o := fun o ho same => h (same ▸ ho)
  obtain ⟨ldi, prn, hlt, mul, add, push, pop, call, ret, cmp, jmp, jeq, jne⟩ := forall_legal.mp differs
  simp only [decode, ldi, prn, hlt, mul, add, push, pop, call, ret, cmp, jmp, jeq, jne, if_false]

/-- What the decoder reads from a legal opcode byte, one case an opcode. -/
theorem decode_cases {op a b : Byte} {i : Instr} (h : decode op a b = .ok i) :
    (op = Opcode.ldi ∧ i = .ldi a b) ∨ (op = Opcode.prn ∧ i = .prn a) ∨ (op = Opcode.hlt ∧ i = .hlt) ∨
    (op = Opcode.mul ∧ i = .mul a b) ∨ (op = Opcode.add ∧ i = .add a b) ∨ (op = Opcode.push ∧ i = .push a) ∨
    (op = Opcode.pop ∧ i = .pop a) ∨ (op = Opcode.call ∧ i = .call a) ∨ (op = Opcode.ret ∧ i = .ret) ∨
    (op = Opcode.cmp ∧ i = .cmp a b) ∨ (op = Opcode.jmp ∧ i = .jmp a) ∨ (op = Opcode.jeq ∧ i = .jeq a) ∨
    (op = Opcode.jne ∧ i = .jne a) := by
  by_cases hl : op ∈ Opcode.legal
  · revert h
    revert hl
    generalize op = o
    revert o
    refine forall_legal.mpr ?_
    and_intros <;> intro read <;> obtain rfl := Except.ok.inj read <;> simp
  · rw [decode_of_not_legal hl] at h
    cases h

/-- What the decoder reads has the opcode byte it was given. -/
theorem opcode_of_decode {op a b : Byte} {i : Instr} (h : decode op a b = .ok i) : i.opcode = op := by
  have each : ∀ o ∈ Opcode.legal, decode o a b = .ok i → i.opcode = o :=
    forall_legal.mpr (by and_intros <;> intro read <;> obtain rfl := Except.ok.inj read <;> rfl)
  by_cases hl : op ∈ Opcode.legal
  · exact each op hl h
  · rw [decode_of_not_legal hl] at h
    cases h

/-- Every instruction's opcode byte is legal. -/
theorem opcode_legal (i : Instr) : i.opcode ∈ Opcode.legal := by
  cases i <;> simp [Instr.opcode, Opcode.legal]

namespace Machine

/-- A step of a RUNNING state whose bytes at `pc` decode runs that instruction on the fetched state. -/
theorem step_of_ok {s : State} {i : Instr} (hr : s.runState = .running) (h : s.nextInstr = .ok i) :
    step s = exec i s.fetch := by
  rw [State.nextInstr] at h
  simp only [step, hr, State.fetch_ir, State.fetch_opa, State.fetch_opb, h]

/-- A step of a RUNNING state whose bytes at `pc` do not decode raises IllegalInstruction on the fetched state. -/
theorem step_of_error {s : State} {e : DecodeError} (hr : s.runState = .running) (h : s.nextInstr = .error e) :
    step s = .next (s.fetch.raise .illegalInstruction s.pc (s.memRead s.pc)) := by
  rw [State.nextInstr] at h
  simp only [step, hr, State.fetch_ir, State.fetch_opa, State.fetch_opb, State.fetch_pc, h]

/-- A step of any other state changes nothing. -/
theorem step_of_not_running {s : State} (h : s.runState ≠ .running) : step s = .next s := by
  unfold step
  split <;> first | contradiction | rfl

/-- Everything a step can do. -/
theorem step_cases (s : State) :
    (s.runState ≠ .running ∧ step s = .next s) ∨
    (s.runState = .running ∧ ∃ i, s.nextInstr = .ok i ∧ step s = exec i s.fetch) ∨
    (s.runState = .running ∧ s.memRead s.pc ∉ Opcode.legal ∧ (∃ e, s.nextInstr = .error e) ∧
      step s = .next (s.fetch.raise .illegalInstruction s.pc (s.memRead s.pc))) := by
  by_cases hr : s.runState = .running
  · by_cases hl : s.memRead s.pc ∈ Opcode.legal
    · obtain ⟨i, hi⟩ := decode_of_legal hl (s.memRead (s.pc + 1)) (s.memRead (s.pc + 2))
      exact .inr (.inl ⟨hr, i, hi, step_of_ok hr hi⟩)
    · have he := decode_of_not_legal hl (s.memRead (s.pc + 1)) (s.memRead (s.pc + 2))
      exact .inr (.inr ⟨hr, hl, ⟨_, he⟩, step_of_error hr he⟩)
  · exact .inl ⟨hr, step_of_not_running hr⟩

/-- A run of one step more, from a state whose step is known. -/
theorem runSteps_succ {s t : State} (h : step s = .next t) (n : Nat) : runSteps (n + 1) s = runSteps n t := by
  simp only [runSteps, h]

end Machine

end Sys2Proof
end

