-- ==== Sys2Proof/Tests/Slice0.lean ====
section
/-! SUPPORT. The model's own tests: words written out from the opcode table, one step from the spec's test vectors
(spec/95_test_vectors.md), the refusals of the well-formedness check, and a witness for the hypotheses of each
statement. -/

namespace Sys2Proof.Tests

open Sys2Proof.Machine

/-! ### Well-formedness: each check refuses an ill-formed term (R73, R103) -/

theorem test_wf_accepts_register_7 : (Instr.ldi 7 255).wf = true := by decide
theorem test_wf_refuses_ldi_a : (Instr.ldi 8 5).wf = false := by decide
theorem test_wf_refuses_prn_a : (Instr.prn 255).wf = false := by decide
theorem test_wf_refuses_mul_a : (Instr.mul 8 0).wf = false := by decide
theorem test_wf_refuses_mul_b : (Instr.mul 1 9).wf = false := by decide
theorem test_wf_refuses_add_b : (Instr.add 1 8).wf = false := by decide
theorem test_wf_refuses_push_a : (Instr.push 8).wf = false := by decide
theorem test_wf_refuses_pop_a : (Instr.pop 8).wf = false := by decide
theorem test_wf_refuses_call_a : (Instr.call 8).wf = false := by decide
theorem test_wf_refuses_cmp_ab : (Instr.cmp 8 9).wf = false := by decide
theorem test_wf_refuses_jumps : (Instr.jmp 8).wf = false ∧ (Instr.jeq 8).wf = false ∧ (Instr.jne 8).wf = false := by
  decide

/-! ### Decoding: the binary words of R76, every constructor -/

theorem test_decode_ldi : decode 0b10000010 0b00000011 0b11111111 = .ok (.ldi 3 255) := by decide
theorem test_decode_prn : decode 0b01000111 0b00000101 0 = .ok (.prn 5) := by decide
theorem test_decode_hlt : decode 0b00000001 0 0 = .ok .hlt := by decide
theorem test_decode_mul : decode 0b10100010 0b00000010 0b00000011 = .ok (.mul 2 3) := by decide
theorem test_decode_add : decode 0b10100000 0b00000000 0b00000001 = .ok (.add 0 1) := by decide
theorem test_decode_push : decode 0b01000101 0b00000001 0 = .ok (.push 1) := by decide
theorem test_decode_pop : decode 0b01000110 0b00000010 0 = .ok (.pop 2) := by decide
theorem test_decode_call : decode 0b01010000 0b00000001 0 = .ok (.call 1) := by decide
theorem test_decode_ret : decode 0b00010001 0 0 = .ok .ret := by decide
theorem test_decode_cmp : decode 0b10100111 0b00000000 0b00000001 = .ok (.cmp 0 1) := by decide
theorem test_decode_jmp : decode 0b01010100 0b00000000 0 = .ok (.jmp 0) := by decide
theorem test_decode_jeq : decode 0b01010101 0b00000010 0 = .ok (.jeq 2) := by decide
theorem test_decode_jne : decode 0b01010110 0b00000010 0 = .ok (.jne 2) := by decide
theorem test_decode_refuses_by_name : decode 0xA1 0 1 = .error (.illegalOpcode 0xA1) := by decide
theorem test_decode_zeroed_memory : decode 0 0 0 = .error (.illegalOpcode 0) := by decide
theorem test_table_word_ldi : decodeTableWord 24 0xFF0382 = some (.ldi 3 255) := by decide
theorem test_table_word_short : decodeTableWord 8 0xFFFF82 = some (.ldi 0 0) := by decide
theorem test_opcodes_distinct : Opcode.legal.Pairwise (· ≠ ·) := by decide

/-! ### One step from a small state -/

/-- A RUNNING state about to run the instruction `b0 b1 b2` at `a`. -/
def ready (a b0 b1 b2 : Byte) (s : State) : State := ((s.storeBytes a b0 b1 b2).setPc a).setRunState .running

/-- What one step from there shows of the next state. -/
def shows {α : Type} (f : State → α) (r : Result) : Option α :=
  match r with
  | .next t => some (f t)
  | .fault _ => none
  | .refused _ => none

/-- The run state, the fault record and `pc`. -/
def record (s : State) : RunState × BitVec 2 × Byte × Byte × Byte :=
  (s.runState, s.faultCode, s.faultAddr, s.faultOp, s.pc)

-- Vectors V1, V2, V5, V7, V8, V9, V10
theorem test_zeroed_memory_faults :
    shows record (step (ready 0x05 0 0 0 .reset)) = some (.faulted, 1, 0x05, 0x00, 0x05) := by decide
theorem test_opcode_beside_add_faults :
    shows record (step (ready 0x05 0xA1 0 1 .reset)) = some (.faulted, 1, 0x05, 0xA1, 0x05) := by decide
theorem test_bad_register_faults :
    shows record (step (ready 0 0x82 8 5 .reset)) = some (.faulted, 3, 0x00, 0x82, 0x00) := by decide
theorem test_two_bad_registers_fault_once :
    shows record (step (ready 0 0xA7 8 9 .reset)) = some (.faulted, 3, 0x00, 0xA7, 0x00) := by decide
theorem test_untaken_jump_checks_register :
    shows record (step (ready 0x0C 0x55 8 0 .reset)) = some (.faulted, 3, 0x0C, 0x55, 0x0C) := by decide
theorem test_fetch_wraps :
    shows (fun t => (t.reg 2, t.pc)) (step (ready 0xFE 0x82 2 0x33 .reset)) = some (0x33, 0x01) := by decide
theorem test_push_over_own_operand :
    shows (fun t => (t.memRead 0x11, t.reg 7, t.pc))
      (step (ready 0x10 0x45 1 0 ((State.reset.setReg 7 0x12).setReg 1 0x05))) = some (0x05, 0x11, 0x12) := by decide

-- Vectors V11 to V15
theorem test_ldi : shows (fun t => (t.reg 3, t.pc)) (step (ready 0 0x82 3 0xFF .reset)) = some (0xFF, 3) := by decide
theorem test_ldi_moves_sp : shows (fun t => (t.reg 7, t.pc)) (step (ready 0 0x82 7 0x10 .reset)) = some (0x10, 3) := by
  decide
theorem test_prn : shows (fun t => (t.output, t.pc)) (step (ready 0x10 0x47 5 0 (State.reset.setReg 5 0xFF))) =
    some ([0xFF], 0x12) := by decide
theorem test_prn_bad_register : shows (fun t => (t.output, t.runState)) (step (ready 0x10 0x47 0xFF 0 .reset)) =
    some ([], .faulted) := by decide
theorem test_hlt : shows (fun t => (t.runState, t.pc)) (step (ready 0x20 0x01 0 0 .reset)) = some (.halted, 0x21) := by
  decide

-- Vectors V22, V23, V25, V30, V32, V34
theorem test_mul_low_byte : shows (fun t => t.reg 2)
    (step (ready 0 0xA2 2 3 ((State.reset.setReg 2 0xFF).setReg 3 0xFF))) = some 0x01 := by decide
theorem test_mul_same_register : shows (fun t => t.reg 4) (step (ready 0 0xA2 4 4 (State.reset.setReg 4 15))) =
    some 0xE1 := by decide
theorem test_add_wraps : shows (fun t => (t.reg 0, t.reg 1))
    (step (ready 0 0xA0 0 1 ((State.reset.setReg 0 250).setReg 1 10))) = some (4, 10) := by decide
theorem test_add_keeps_flags : shows (fun t => (t.reg 0, t.fl))
    (step (ready 0 0xA0 0 1 (((State.reset.setReg 0 1).setReg 1 1).setFl 1))) = some (2, 1) := by decide
theorem test_cmp_less : shows (fun t => t.fl) (step (ready 0 0xA7 0 1 ((State.reset.setReg 0 5).setReg 1 6))) =
    some 0x04 := by decide
theorem test_cmp_unsigned : shows (fun t => t.fl) (step (ready 0 0xA7 0 1 ((State.reset.setReg 0 0xFF).setReg 1 1))) =
    some 0x02 := by decide

-- Vectors V41, V42, V44, V46
theorem test_push_sp : shows (fun t => (t.reg 7, t.memRead 0xF3)) (step (ready 0 0x45 7 0 .reset)) =
    some (0xF3, 0xF4) := by decide
theorem test_push_wraps : shows (fun t => (t.reg 7, t.memRead 0xFF))
    (step (ready 0x10 0x45 0 0 ((State.reset.setReg 0 0xAB).setReg 7 0))) = some (0xFF, 0xAB) := by decide
theorem test_pop_sp : shows (fun t => t.reg 7)
    (step (ready 0 0x46 7 0 ((State.reset.setReg 7 0xF3).memWrite 0xF3 0x42))) = some 0x42 := by decide
theorem test_pop_wraps : shows (fun t => (t.reg 1, t.reg 7))
    (step (ready 0 0x46 1 0 ((State.reset.setReg 7 0xFF).memWrite 0xFF 0x11))) = some (0x11, 0x00) := by decide

-- Vectors V51, V52, V53, V54, V55, V57, V58, V60, V63
theorem test_call_return_wraps : shows (fun t => (t.reg 7, t.memRead 0xF3, t.pc))
    (step (ready 0xFE 0x50 1 0 (State.reset.setReg 1 0x40))) = some (0xF3, 0x00, 0x40) := by decide
theorem test_call_sp : shows (fun t => (t.reg 7, t.memRead 0xF3, t.pc)) (step (ready 0x10 0x50 7 0 .reset)) =
    some (0xF3, 0x12, 0xF3) := by decide
theorem test_ret : shows (fun t => (t.pc, t.reg 7))
    (step (ready 0x10 0x11 0 0 ((State.reset.setReg 7 0xF3).memWrite 0xF3 0x08))) = some (0x08, 0xF4) := by decide
theorem test_ret_empty_stack : shows (fun t => (t.pc, t.reg 7))
    (step (ready 0x10 0x11 0 0 (State.reset.memWrite 0xF4 0x77))) = some (0x77, 0xF5) := by decide
theorem test_jmp : shows (fun t => t.pc) (step (ready 0x03 0x54 0 0 (State.reset.setReg 0 0xFE))) = some 0xFE := by
  decide
theorem test_jeq_taken : shows (fun t => t.pc) (step (ready 0x0C 0x55 2 0 ((State.reset.setReg 2 0x10).setFl 1))) =
    some 0x10 := by decide
theorem test_jeq_not_taken : shows (fun t => t.pc) (step (ready 0x0C 0x55 2 0 ((State.reset.setReg 2 0x10).setFl 4))) =
    some 0x0E := by decide
theorem test_jne_taken : shows (fun t => t.pc) (step (ready 0x0C 0x56 2 0 ((State.reset.setReg 2 0x10).setFl 4))) =
    some 0x10 := by decide
theorem test_jne_not_taken_wraps : shows (fun t => t.pc)
    (step (ready 0xFF 0x56 2 0 ((State.reset.setReg 2 0x10).setFl 1))) = some 0x01 := by decide

/-! ### The step around the instructions, the ports, the loader and the texts -/

theorem test_idle_takes_no_step : shows id (step State.reset) = some State.reset := by decide
theorem test_with_fetch_word : shows (fun t => (t.reg 3, t.pc)) (step (State.reset.withFetchWord 24 0xFF0382)) =
    some (0xFF, 3) := by decide
theorem test_memory_stays_canonical : (State.reset.memWrite 9 5).memWrite 9 0 = State.reset := by decide
theorem test_memory_sorted : ((State.reset.memWrite 9 5).memWrite 3 1).mem = [(3, 1), (9, 5)] := by decide
theorem test_load_ignored_while_running :
    applyInput (.load 0 0x01) (applyInput .start .reset) = applyInput .start .reset := by decide
-- Vector V16
theorem test_render : hostText [0x00, 0x04, 0x80] = ['0', '\n', '4', '\n', '1', '2', '8', '\n'] := by decide
-- R233: lines of binary digits, a line with no digits skipped
theorem test_parse_image : (parseImage ['1', '0', '\n', '#', '\n', '\n', '1', '\n']).toOption = some [2, 1] := by decide
theorem test_parse_long_line : (parseImage ['1', '0', '0', '0', '0', '0', '0', '0', '0']).toOption = none := by decide
-- R81: `LDI R0 5`, `LDI R0, 5`, case of the mnemonic, 0x and 0b immediates
theorem test_print_ldi : Assembly.print (.ldi 0 5) = ['L', 'D', 'I', ' ', 'R', '0', ',', ' ', '5'] := by decide
theorem test_assemble_spaces : Assembly.assemble ['l', 'd', 'i', ' ', 'R', '0', ' ', '0', 'x', '0', 'D'] =
    some (.ldi 0 13) := by decide
theorem test_assemble_binary : Assembly.assemble
    ['L', 'D', 'I', ' ', 'R', '7', ',', '0', 'b', '1', '0', '0', '0', '0', '0', '0', '1'] = some (.ldi 7 129) := by decide
theorem test_assemble_bad_register : Assembly.assemble ['J', 'M', 'P', ' ', 'R', '8'] = none := by decide

/-! ### Witnesses: the hypotheses of the statements can be met -/

/-- The first and the last register are named by their bytes, for the clauses on a register operand; 8 and 255 name
none. (LdiLoadsItsImmediate to JneJumpsOnNotEqual, StackWrapsAndNeverFaults, PushThenPopRoundTrip, CallThenRetReturns,
CompareThenBranch.) -/
theorem witness_register_operands : (0 : Byte).toNat = (0 : Reg).val ∧ (7 : Byte).toNat = (7 : Reg).val ∧
    8 ≤ (8 : Byte).toNat ∧ 8 ≤ (255 : Byte).toNat := by decide

theorem witness_two_bad_operands : (8 ≤ (8 : Byte).toNat ∨ 8 ≤ (0 : Byte).toNat) ∧
    (8 ≤ (7 : Byte).toNat ∨ 8 ≤ (255 : Byte).toNat) := by decide

theorem witness_stack_wrap : (State.reset.setReg 7 0).reg 7 = 0x00 ∧ State.reset.reg 7 = 0xF4 ∧
    (State.reset.setReg 7 0xFF).reg 7 = 0xFF ∧ (0 : Byte).toNat = (0 : Reg).val ∧ (0 : Reg) ≠ 7 := by decide

theorem witness_memory_other_cell : (1 : Byte) ≠ 0 ∧ (6 : Reg) ≠ 7 ∧ State.reset.reg 7 - 1 ≠ 0 := by decide

/-- A RUNNING state about to run `ADD R0, R1` at the end of memory. -/
def readyAdd : State := ready 0xFF 0xA0 0 1 (State.reset.setReg 1 2)

/-- A RUNNING state at zeroed memory. -/
def readyZero : State := State.reset.setRunState .running

/-- A RUNNING state at `PRN R8`. -/
def readyBad : State := ready 0 0x47 8 0 .reset

theorem witness_StepRunsTheDecodedInstruction : readyAdd.runState = .running ∧
    decode (readyAdd.memRead readyAdd.pc) (readyAdd.memRead (readyAdd.pc + 1)) (readyAdd.memRead (readyAdd.pc + 2)) =
      .ok (.add 0 1) := by decide

theorem witness_StepRunsTheDecodedInstruction_error : readyZero.runState = .running ∧
    decode (readyZero.memRead readyZero.pc) (readyZero.memRead (readyZero.pc + 1))
      (readyZero.memRead (readyZero.pc + 2)) = .error (.illegalOpcode 0) := by decide

theorem witness_IllegalOpcodeFaults : readyZero.runState = .running ∧ readyZero.memRead readyZero.pc ∉
    [(0x82 : Byte), 0x47, 0x01, 0xA2, 0xA0, 0x45, 0x46, 0x50, 0x11, 0xA7, 0x54, 0x55, 0x56] := by decide

theorem witness_IllegalRegisterFaultsExactly : (∃ f ∈ (Instr.mul 7 8).regFields, 8 ≤ f.toNat) ∧
    (∀ f ∈ (Instr.mul 7 0).regFields, f.toNat < 8) := by decide

theorem witness_ControllerStepsOnlyWhileRunning : State.reset.runState ≠ .running ∧ readyAdd.runState = .running ∧
    (∃ t, step readyAdd = .next t) ∧ HostInput.start ≠ .reset := by
  refine ⟨by decide, by decide, ⟨_, step_of_ok (i := .add 0 1) (by decide) (by decide)⟩, by decide⟩

/-- A step to HALTED, one to FAULTED by a bad register, one to FAULTED by an illegal opcode, one to RUNNING.
(RunStateAfterAStep, FaultsArePrecise, OutputGrowsOnlyByPrn.) -/
theorem witness_step_outcomes :
    shows State.runState (step (ready 0 0x01 0 0 .reset)) = some .halted ∧
    shows State.runState (step readyBad) = some .faulted ∧ shows State.runState (step readyZero) = some .faulted ∧
    shows State.runState (step readyAdd) = some .running := by decide

theorem witness_OutputGrowsOnlyByPrn : (ready 0 0x47 7 0 .reset).nextInstr = .ok (.prn 7) ∧
    readyBad.nextInstr = .ok (.prn 8) ∧ (7 : Byte).toNat = (7 : Reg).val ∧ readyAdd.nextInstr ≠ .ok (.prn 0) := by decide

theorem witness_AutoAdvanceByLength : (Instr.ldi 7 0).wf = true ∧ (Instr.ldi 7 0).opcode.getLsbD 4 = false ∧
    Instr.hlt.wf = true ∧ Instr.hlt.opcode.getLsbD 4 = false := by decide

theorem witness_LengthFromTheOpcodeByte : (encode (.ldi 0 1)).head? = (encode (.ldi 7 2)).head? := by decide

theorem witness_DecodeAndEncodeAgree : decode 0xA2 7 255 = .ok (.mul 7 255) ∧ encode (.prn 3) <+: [0x47, 3, 9] := by
  decide

theorem witness_UnusedOperandBytesHaveNoEffect :
    (ready 0 0x01 1 2 .reset).nextInstr = .ok .hlt ∧ (Instr.hlt.opcode >>> 6).toNat = 0 ∧
    (ready 0 0x47 1 2 .reset).nextInstr = .ok (.prn 1) ∧ ((Instr.prn 1).opcode >>> 6).toNat = 1 ∧
    (ready 4 0x47 1 3 .reset).memRead 4 = (ready 0 0x47 1 2 .reset).memRead 0 ∧
    (ready 4 0x47 1 3 .reset).memRead 5 = (ready 0 0x47 1 2 .reset).memRead 1 := by decide

/-- Two RUNNING states at `PRN R1`, and two at `RET`, that differ only in the bytes after the instruction. -/
theorem witness_UnusedOperandBytesHaveNoEffect_step :
    (ready 0 0x47 1 2 .reset).runState = .running ∧
    { ready 0 0x47 1 3 .reset with mem := (ready 0 0x47 1 2 .reset).mem } = ready 0 0x47 1 2 .reset ∧
    (ready 0 0x47 1 3 .reset).memRead 0 = (ready 0 0x47 1 2 .reset).memRead 0 ∧
    (ready 0 0x47 1 3 .reset).memRead 1 = (ready 0 0x47 1 2 .reset).memRead 1 ∧
    (ready 0 0x47 1 3 .reset).memRead (State.reset.reg 7) = (ready 0 0x47 1 2 .reset).memRead (State.reset.reg 7) ∧
    { ready 0 0x11 4 3 .reset with mem := (ready 0 0x11 1 2 .reset).mem } = ready 0 0x11 1 2 .reset ∧
    (ready 0 0x11 1 2 .reset).nextInstr = .ok .ret ∧ (Instr.ret.opcode >>> 6).toNat = 0 := by decide

/-- A RUNNING state that meets the invariant, loaded with `HLT` and started. -/
theorem witness_StepKeepsTheInvariant : ∃ s t : State, s.Inv ∧ s.runState = .running ∧ step s = .next t := by
  refine ⟨applyInput .start (applyInput (.load 0 0x01) .reset), _, ?_, by decide,
    step_of_ok (i := .hlt) (by decide) (by decide)⟩
  exact
    { memCanonical := by decide, flagsLegal := by decide, idleIsReset := by decide, recordClear := by decide,
      recordPlace := by decide, recordCause := fun h => absurd h (by decide), haltedAtHlt := by decide }

/-- A FAULTED state that meets the invariant. (HostInputsKeepTheInvariant, StepKeepsTheInvariant.) -/
theorem witness_faulted_invariant :
    ∃ s : State, s.Inv ∧ s.runState = .faulted := by
  refine ⟨readyZero.raise .illegalInstruction 0 0, ?_, rfl⟩
  exact
    { memCanonical := by decide, flagsLegal := by decide, idleIsReset := by decide, recordClear := by decide,
      recordPlace := by decide, recordCause := fun _ => .inl ⟨rfl, by unfold LegalOpcode; decide⟩,
      haltedAtHlt := by decide }

theorem witness_ReachableStatesMeetTheInvariant : ∃ s : State, Reachable s ∧ s.runState = .running :=
  ⟨_, .input .start .reset, rfl⟩

theorem witness_RegistersAreWrittenOnlyByTheirInstructions :
    shows (fun t => t.reg 7) (exec .ret .reset) = some 0xF5 ∧ State.reset.reg 7 ≠ 0xF5 ∧
    shows (fun t => t.reg 3) (exec (.ldi 3 9) .reset) = some 9 ∧ State.reset.reg 3 ≠ 9 := by decide

theorem witness_FlagsAreWrittenOnlyByCmp :
    shows (fun t => t.fl) (exec (.cmp 0 0) .reset) = some 1 ∧ State.reset.fl ≠ 1 ∧ State.reset.fl.toNat < 8 ∧
    (6 : Byte).getLsbD 0 = State.reset.fl.getLsbD 0 ∧ shows (fun t => t.pc) (exec (.jeq 0) .reset) = some 2 ∧
    shows (fun t => t.runState) (exec (.cmp 8 0) .reset) = some .faulted := by decide

theorem witness_MemoryIsWrittenOnlyByPushAndCall : shows (fun t => t.mem) (exec (.push 7) .reset) = some [(0xF3, 0xF4)] ∧
    shows (fun t => t.mem) (exec (.ldi 0 1) .reset) = some [] := by decide

theorem witness_frames : (Instr.add 0 7).wf = true ∧ (Instr.pop 7).wf = true ∧ (Instr.ldi 0 255).wf = true ∧
    (Instr.call 7).wf = true ∧ (Instr.cmp 0 7).wf = true ∧ (0 : Byte).toNat = (0 : Reg).val ∧
    (7 : Byte).toNat = (7 : Reg).val := by decide

/-- A state after a subroutine that left SP and the return address in place. -/
theorem witness_CallThenRetReturns : shows (fun t => (t.reg 7, t.memRead (t.reg 7))) (exec (.call 1) .reset) =
    some (0xF3, 2) ∧ (ready 0x40 0x11 0 0 ((State.reset.setReg 7 0xF3).memWrite 0xF3 2)).reg 7 = 0xF3 ∧
    (ready 0x40 0x11 0 0 ((State.reset.setReg 7 0xF3).memWrite 0xF3 2)).memRead 0xF3 = 2 := by decide

theorem witness_CompareThenBranch : State.reset.reg 0 = State.reset.reg 1 ∧ State.reset.reg 0 ≠ State.reset.reg 7 := by
  decide

/-- The push lands on its own operand byte, and on the next opcode (program P6). -/
theorem witness_StoresIntoCodeAreSeenByTheNextFetch :
    (ready 0x10 0x45 1 0 (State.reset.setReg 7 0x12)).runState = .running ∧
    (ready 0x10 0x45 1 0 (State.reset.setReg 7 0x12)).memRead 0x10 = 0x45 ∧
    (ready 0x10 0x45 1 0 (State.reset.setReg 7 0x12)).memRead 0x11 = 1 ∧
    (ready 0x10 0x45 1 0 (State.reset.setReg 7 0x12)).reg 7 - 1 = 0x10 + 1 ∧
    (ready 0x06 0x45 0 0x47 (State.reset.setReg 7 9)).memRead 0x06 = 0x45 ∧
    (ready 0x06 0x45 0 0x47 (State.reset.setReg 7 9)).memRead 0x07 = 0 ∧
    (ready 0x06 0x45 0 0x47 (State.reset.setReg 7 9)).reg 7 - 1 = 0x06 + 2 := by decide

/-- CALL stores to its own operand byte; CALL R7, and a CALL on a register that holds SP - 1, jump to the stored byte. -/
theorem witness_StoresIntoCodeAreSeenByTheNextFetch_call :
    (ready 0x10 0x50 1 0 (State.reset.setReg 7 0x12)).runState = .running ∧
    (ready 0x10 0x50 1 0 (State.reset.setReg 7 0x12)).memRead 0x10 = 0x50 ∧
    (ready 0x10 0x50 1 0 (State.reset.setReg 7 0x12)).memRead 0x11 = 1 ∧
    (ready 0x10 0x50 1 0 (State.reset.setReg 7 0x12)).reg 7 - 1 = 0x10 + 1 ∧
    (ready 0x10 0x50 7 0 .reset).memRead 0x11 = 7 ∧ (7 : Byte).toNat = (7 : Reg).val ∧
    (ready 0x10 0x50 1 0 (State.reset.setReg 1 0xF3)).reg 1 = (State.reset.setReg 1 0xF3).reg 7 - 1 := by decide

theorem witness_UnimplementedAluOpNeverOccurs :
    shows (fun t => t.faultCode) (exec (.ldi 0 1) (State.reset.raise .unimplementedAluOp 0 0)) = some 2 ∧
    shows (fun t => t.faultCode) (step (State.reset.raise .unimplementedAluOp 0 0)) = some 2 := by decide

theorem witness_StartAndLoad : State.reset.runState = .idle ∧ readyZero.runState ≠ .idle ∧ (0xFF : Byte) ≠ 0 := by decide

/-- An image of 256 bytes and the empty one are loaded, one of 257 is not. -/
theorem witness_LoadedImageStandsFromTheEntry : ([] : List Byte).length ≤ 256 ∧ (List.replicate 256 (0x01 : Byte)).length ≤ 256 ∧
    256 < (List.replicate 257 (0x01 : Byte)).length := by
  rw [List.length_replicate, List.length_replicate]
  decide

theorem witness_AssemblingThePrintedTextGivesTheInstruction : (Instr.ldi 7 255).wf = true ∧ Instr.ret.wf = true := by
  decide

theorem witness_NoStepReadsTheOldLatches : readyAdd.runState = .running := by decide

end Sys2Proof.Tests
end

section
/-! SUPPORT. The register file's rule (spec/10_state.md R20), and the flags register's (R27): an instruction other than CMP
commutes with a change of `FL`, unless it is a jump that reads bit `E` and the change is one of that bit. -/

namespace Sys2Proof.Machine

/-- Settles O4: each part is the read-after-write law of the register file, or the frame of the record update. -/
theorem registerWriteChangesOneRegister : Obligations.RegisterWriteChangesOneRegister := by
  intro s r v
  refine ⟨?same, fun q hq => ?other, rfl⟩
  case same => rw [State.reg_setReg, if_pos rfl]
  case other => rw [State.reg_setReg, if_neg hq.symm]

/-- Change the state a result leads to, if it leads to one. -/
def mapNext (g : State → State) : Result → Result
  | .next t => .next (g t)
  | .fault r => .fault r
  | .refused r => .refused r

@[simp] theorem mapNext_next (g : State → State) (t : State) : mapNext g (.next t) = .next (g t) := rfl

section
variable {g : State → State} {s : State}
  (hraise : ∀ op, (g s).raise .illegalRegister (g s).pc op = g (s.raise .illegalRegister s.pc op))
include hraise

/-- The register check commutes with a change of state that its fault and its continuation commute with. -/
theorem withReg_mapNext {op b : Byte} {k k' : Reg → Result} (hk : ∀ r, k' r = mapNext g (k r)) :
    withReg op b (g s) k' = mapNext g (withReg op b s k) := by
  obtain ⟨r, hr, checked⟩ | ⟨hb, faults⟩ := withReg_cases op b s k
  · rw [checked, withReg_of_reg hr, hk]
  · rw [faults, withReg_of_ge hb, hraise, mapNext_next]

/-- So does the check of two register operands. -/
theorem withRegs_mapNext {op a b : Byte} {k k' : Reg → Reg → Result} (hk : ∀ ra rb, k' ra rb = mapNext g (k ra rb)) :
    withRegs op a b (g s) k' = mapNext g (withRegs op a b s k) :=
  withReg_mapNext hraise fun ra => withReg_mapNext hraise fun rb => hk ra rb

end

/-- An instruction that is not CMP carries `FL` along unread and unchanged, but for bit `E` in JEQ and JNE (R27). -/
theorem exec_setFl {i : Instr} {s : State} {f : Byte} (hcmp : ∀ a b, i ≠ .cmp a b)
    (hE : (s.setFl f).flagE = s.flagE ∨ ((∀ a, i ≠ .jeq a) ∧ ∀ a, i ≠ .jne a)) :
    exec i (s.setFl f) = mapNext (·.setFl f) (exec i s) := by
  have one {op a : Byte} {k k' : Reg → Result} (hk : ∀ r, k' r = mapNext (·.setFl f) (k r)) :
      withReg op a (s.setFl f) k' = mapNext (·.setFl f) (withReg op a s k) :=
    withReg_mapNext (g := (·.setFl f)) (fun _ => rfl) hk
  have two {op a b : Byte} {k k' : Reg → Reg → Result} (hk : ∀ ra rb, k' ra rb = mapNext (·.setFl f) (k ra rb)) :
      withRegs op a b (s.setFl f) k' = mapNext (·.setFl f) (withRegs op a b s k) :=
    withRegs_mapNext (g := (·.setFl f)) (fun _ => rfl) hk
  cases i with
  | hlt | ret => rfl
  | ldi | prn | push | pop | call | jmp => exact one fun _ => rfl
  | mul | add => exact two fun _ _ => rfl
  | cmp a b => exact absurd rfl (hcmp a b)
  | jeq a =>
    have sameE := hE.resolve_right fun h => h.1 a rfl
    exact one fun _ => by rw [sameE]; rfl
  | jne a =>
    have sameE := hE.resolve_right fun h => h.2 a rfl
    exact one fun _ => by rw [sameE]; rfl

/-- Only CMP writes `FL`: any other instruction commutes with writing back the `FL` the state has. -/
theorem exec_keeps_fl {i : Instr} {s t : State} (hcmp : ∀ a b, i ≠ .cmp a b) (h : exec i s = .next t) :
    t.fl = s.fl := by
  have same : exec i s = mapNext (·.setFl s.fl) (exec i s) := exec_setFl (f := s.fl) hcmp (.inl rfl)
  rw [h, mapNext_next] at same
  calc t.fl = (t.setFl s.fl).fl := congrArg State.fl (Host.Outcome.next.inj same)
    _ = s.fl := State.setFl_fl t s.fl

/-- CMP on two registers: the next state (R144). -/
theorem exec_cmp_of_reg {a b : Byte} {ra rb : Reg} (s : State) (ha : a.toNat = ra.val) (hb : b.toNat = rb.val) :
    exec (.cmp a b) s = .next ((s.setFl (compareFlags (s.reg ra) (s.reg rb))).setPc (s.pc + 3)) :=
  withRegs_of_reg ha hb

/-- CMP with an operand that names no register faults (R103). -/
theorem exec_cmp_of_ge {a b : Byte} (s : State) (h : 8 ≤ a.toNat ∨ 8 ≤ b.toNat) :
    exec (.cmp a b) s = .next (s.raise .illegalRegister s.pc Opcode.cmp) :=
  withRegs_of_ge h

/-- Everything CMP can do. -/
theorem exec_cmp_cases (a b : Byte) (s : State) :
    (∃ ra rb : Reg, a.toNat = ra.val ∧ b.toNat = rb.val ∧
      exec (.cmp a b) s = .next ((s.setFl (compareFlags (s.reg ra) (s.reg rb))).setPc (s.pc + 3))) ∨
    ((8 ≤ a.toNat ∨ 8 ≤ b.toNat) ∧ exec (.cmp a b) s = .next (s.raise .illegalRegister s.pc Opcode.cmp)) :=
  withRegs_cases _ _ _ _ _

/-- CMP does not read `FL`: the old flags show in the answer only where it faults. -/
theorem exec_cmp_setFl (a b : Byte) (s : State) (f : Byte) :
    exec (.cmp a b) (s.setFl f) =
      mapNext (fun t => if a.toNat < 8 ∧ b.toNat < 8 then t else t.setFl f) (exec (.cmp a b) s) := by
  obtain ⟨ra, rb, ha, hb, run⟩ | ⟨bad, run⟩ := exec_cmp_cases a b s
  · have good : a.toNat < 8 ∧ b.toNat < 8 := by omega
    rw [run, exec_cmp_of_reg _ ha hb, mapNext_next, if_pos good]
    rfl
  · have notGood : ¬ (a.toNat < 8 ∧ b.toNat < 8) := by omega
    rw [run, exec_cmp_of_ge _ bad, mapNext_next, if_neg notGood]
    rfl

/-- CMP writes bits 7..3 zero (R144). -/
theorem compareFlags_lt (va vb : Byte) : (compareFlags va vb).toNat < 8 := by
  rw [compareFlags_eq]
  split_ifs <;> decide

/-- What `FL` is after CMP: a comparison's flags, or, where it faults, what it was. -/
theorem exec_cmp_fl {a b : Byte} {s t : State} (h : exec (.cmp a b) s = .next t) :
    (∃ va vb, t.fl = compareFlags va vb) ∨ t.fl = s.fl := by
  obtain ⟨ra, rb, -, -, run⟩ | ⟨-, run⟩ := exec_cmp_cases a b s <;> cases run.symm.trans h
  · exact .inl ⟨_, _, rfl⟩
  · exact .inr rfl

/-- Bits 7..3 of `FL` stay zero (R26). -/
theorem exec_keeps_fl_lt {i : Instr} {s t : State} (h : exec i s = .next t) (hfl : s.fl.toNat < 8) :
    t.fl.toNat < 8 := by
  by_cases hcmp : ∀ a b, i ≠ .cmp a b
  · rwa [exec_keeps_fl hcmp h]
  · push Not at hcmp
    obtain ⟨a, b, rfl⟩ := hcmp
    obtain ⟨va, vb, written⟩ | kept := exec_cmp_fl h
    · rw [written]
      exact compareFlags_lt va vb
    · rwa [kept]

/-- Settles O41: the instructions other than CMP commute with a change of `FL`, and CMP does not read it. -/
theorem flagsAreWrittenOnlyByCmp : Obligations.FlagsAreWrittenOnlyByCmp := by
  refine ⟨fun i s t h changed => ?writer, fun i s t => exec_keeps_fl_lt, fun i s t f h hcmp hE => ?reader,
    fun a b s t f h => ?cmp⟩
  case writer =>
    by_contra hcmp
    push Not at hcmp
    exact changed (exec_keeps_fl hcmp h)
  case reader =>
    have commutes := exec_setFl hcmp hE
    rwa [h] at commutes
  case cmp =>
    have commutes := exec_cmp_setFl a b s f
    rwa [h] at commutes

end Sys2Proof.Machine
end

section
/-! SUPPORT. The statements on memory and the stack primitives (spec/20_memory.md R52, R54, R55). -/

namespace Sys2Proof.Machine

/-- Settles O1: the cells follow the read-after-write law of memory, and the update leaves the other fields alone. -/
theorem memoryWriteChangesOneCell : Obligations.MemoryWriteChangesOneCell := by
  intro s a v
  refine ⟨?written, fun b hb => ?other, s.reg_memWrite a v, rfl⟩
  case written => rw [State.memRead_memWrite, if_pos rfl]
  case other => rw [State.memRead_memWrite, if_neg hb]

/-- Settles O2: the cells and the registers follow the read laws of a push, whose value is taken before it. -/
theorem pushDecrementsThenWrites : Obligations.PushDecrementsThenWrites := by
  intro s v
  have written (u : Byte) : (s.push u).memRead (s.reg 7 - 1) = u := by
    rw [State.memRead_push, if_pos rfl]
  refine ⟨?pointer, written v, fun b hb => ?otherCell, fun r hr => ?otherRegister, rfl, written (s.reg 7)⟩
  case pointer => rw [State.reg_push, if_pos rfl]
  case otherCell => rw [State.memRead_push, if_neg hb]
  case otherRegister => rw [State.reg_push, if_neg hr.symm]

/-- Settles O3: the registers follow the read law of a pop, which does not touch memory. -/
theorem popReadsThenIncrements : Obligations.PopReadsThenIncrements := by
  intro s
  refine ⟨s.pop_fst, ?pointer, fun r hr => ?otherRegister, s.memRead_pop, rfl⟩
  case pointer => rw [State.reg_pop, if_pos rfl]
  case otherRegister => rw [State.reg_pop, if_neg hr.symm]

end Sys2Proof.Machine
end

section
/-! SUPPORT. The run state along steps and host inputs (spec/40_controller.md R100): what the register check and an
instruction do to it, said once. -/

namespace Sys2Proof.Machine

section
variable {s : State} {op : Byte}

/-- The register check leaves the run state to a continuation that keeps it, or enters FAULTED (R103, R201). -/
theorem withReg_runState {b : Byte} {k : Reg → Result}
    (hk : ∀ r, ∃ t, k r = .next t ∧ t.runState = s.runState) :
    ∃ t, withReg op b s k = .next t ∧ t.runState = if [b].all isReg then s.runState else .faulted := by
  obtain ⟨r, hr, checked⟩ | ⟨hb, faults⟩ := withReg_cases op b s k
  · obtain ⟨t, run, kept⟩ := hk r
    exact ⟨t, checked.trans run, by simp [isReg, hr, kept]⟩
  · exact ⟨_, faults, by simp [isReg, hb]⟩

/-- So does the check of two register operands. -/
theorem withRegs_runState {a b : Byte} {k : Reg → Reg → Result}
    (hk : ∀ ra rb, ∃ t, k ra rb = .next t ∧ t.runState = s.runState) :
    ∃ t, withRegs op a b s k = .next t ∧ t.runState = if [a, b].all isReg then s.runState else .faulted := by
  obtain ⟨ra, rb, ha, hb, checked⟩ | ⟨bad, faults⟩ := withRegs_cases op a b s k
  · obtain ⟨t, run, kept⟩ := hk ra rb
    exact ⟨t, checked.trans run, by simp [isReg, ha, hb, kept]⟩
  · have notBoth : ¬ (a.toNat < 8 ∧ b.toNat < 8) := by omega
    exact ⟨_, faults, by simp [isReg, notBoth]⟩

end

/-- An instruction other than HLT answers a next state, which keeps the run state unless a register field is bad. -/
theorem exec_runState_of_ne_hlt {i : Instr} (hi : i ≠ .hlt) (s : State) :
    ∃ t, exec i s = .next t ∧ t.runState = if i.wf then s.runState else .faulted := by
  cases i with
  | hlt => exact absurd rfl hi
  | ret => exact ⟨_, rfl, rfl⟩
  | ldi | prn | push | pop | call | jmp | jeq | jne => exact withReg_runState fun _ => ⟨_, rfl, rfl⟩
  | mul | add | cmp => exact withRegs_runState fun _ _ => ⟨_, rfl, rfl⟩

/-- Everything an instruction can do to the run state (R103, R122). -/
theorem exec_runState_cases {i : Instr} {s t : State} (h : exec i s = .next t) :
    (i = .hlt ∧ t.runState = .halted) ∨ (i.wf = false ∧ t.runState = .faulted) ∨
    (i.wf = true ∧ i ≠ .hlt ∧ t.runState = s.runState) := by
  by_cases hi : i = .hlt
  · subst hi
    obtain rfl := Host.Outcome.next.inj h
    exact .inl ⟨rfl, rfl⟩
  · obtain ⟨u, run, after⟩ := exec_runState_of_ne_hlt hi s
    obtain rfl := Host.Outcome.next.inj (run.symm.trans h)
    cases hw : i.wf with
    | false => exact .inr (.inl ⟨rfl, by simpa [hw] using after⟩)
    | true => exact .inr (.inr ⟨rfl, hi, by simpa [hw] using after⟩)

/-- A step from RUNNING never leads back to IDLE. -/
theorem step_runState_of_running {s t : State} (hr : s.runState = .running) (h : step s = .next t) :
    t.runState = .running ∨ t.runState = .halted ∨ t.runState = .faulted := by
  obtain ⟨idle, -⟩ | ⟨-, i, -, run⟩ | ⟨-, -, -, run⟩ := step_cases s
  · exact absurd hr idle
  · obtain ⟨-, halts⟩ | ⟨-, faults⟩ | ⟨-, -, kept⟩ := exec_runState_cases (run.symm.trans h)
    · exact .inr (.inl halts)
    · exact .inr (.inr faults)
    · exact .inl (kept.trans hr)
  · obtain rfl := Host.Outcome.next.inj (run.symm.trans h)
    exact .inr (.inr rfl)

/-- A run from any other state than RUNNING stands still (R100). -/
theorem runSteps_of_not_running {s : State} (h : s.runState ≠ .running) (n : Nat) : runSteps n s = .next s := by
  induction n with
  | zero => rfl
  | succ n ih => exact (runSteps_succ (step_of_not_running h) n).trans ih

/-- `start` does nothing outside IDLE (R234). -/
theorem start_of_not_idle {s : State} (h : s.runState ≠ .idle) : s.start = s := by
  unfold State.start
  split
  · contradiction
  all_goals rfl

/-- The load port is ignored outside IDLE (R35, R64). -/
theorem loadPort_of_not_idle {s : State} (h : s.runState ≠ .idle) (addr data : Byte) : s.loadPort addr data = s := by
  unfold State.loadPort
  split
  · contradiction
  all_goals rfl

/-- A host input other than reset does nothing outside IDLE. -/
theorem applyInput_of_not_idle {s : State} {i : HostInput} (h : s.runState ≠ .idle) (hi : i ≠ .reset) :
    applyInput i s = s := by
  cases i with
  | reset => exact absurd rfl hi
  | start => exact start_of_not_idle h
  | load addr data => exact loadPort_of_not_idle h addr data

/-- Settles O25: a step from a state that is not RUNNING stands still, by induction on the number of steps; from RUNNING
an instruction keeps the run state, halts or faults; and `start` and the load port act in IDLE only. -/
theorem controllerStepsOnlyWhileRunning : Obligations.ControllerStepsOnlyWhileRunning := by
  refine ⟨fun s n h => runSteps_of_not_running h n, fun s t => step_runState_of_running, fun s i hr hi => ?input⟩
  case input =>
    have notIdle : s.runState ≠ .idle := by simp [hr]
    rwa [applyInput_of_not_idle notIdle hi]

end Sys2Proof.Machine
end

section
/-! SUPPORT. LDI and PRN (spec/41_load_output_halt.md R120, R121): what each does, said once for an operand that names a
register and once for one that names none, and the host's text of one more emitted byte. -/

namespace Sys2Proof.Machine

/-- LDI to a register: the next state (R120). -/
theorem exec_ldi_of_reg {a : Byte} {r : Reg} (imm : Byte) (s : State) (ha : a.toNat = r.val) :
    exec (.ldi a imm) s = .next ((s.setReg r imm).setPc (s.pc + 3)) :=
  withReg_of_reg ha

/-- LDI with a destination that names no register faults (R103). -/
theorem exec_ldi_of_ge {a : Byte} (imm : Byte) (s : State) (ha : 8 ≤ a.toNat) :
    exec (.ldi a imm) s = .next (s.raise .illegalRegister s.pc Opcode.ldi) :=
  withReg_of_ge ha

/-- PRN of a register: the next state (R121). -/
theorem exec_prn_of_reg {a : Byte} {r : Reg} (s : State) (ha : a.toNat = r.val) :
    exec (.prn a) s = .next ((s.emit (s.reg r)).setPc (s.pc + 2)) :=
  withReg_of_reg ha

/-- PRN with an operand that names no register faults, and emits nothing (R103). -/
theorem exec_prn_of_ge {a : Byte} (s : State) (ha : 8 ≤ a.toNat) :
    exec (.prn a) s = .next (s.raise .illegalRegister s.pc Opcode.prn) :=
  withReg_of_ge ha

/-- The host prints one more emitted byte after the earlier ones (R123). -/
theorem hostText_append_singleton (out : List Byte) (v : Byte) :
    hostText (out ++ [v]) = hostText out ++ renderByte v := by
  simp [hostText]

/-- Settles O6: LDI's next state is that of the register check's two branches; PRN then reads the register just
written. -/
theorem ldiLoadsItsImmediate : Obligations.LdiLoadsItsImmediate := by
  refine ⟨fun _ _ => rfl, fun a imm r s ha => exec_ldi_of_reg imm s ha, fun a imm s ha => exec_ldi_of_ge imm s ha,
    fun a imm r s ha => ?thenPrn⟩
  case thenPrn =>
    have loaded : ((s.setReg r imm).setPc (s.pc + 3)).reg r = imm := by
      rw [State.reg_setPc, State.reg_setReg, if_pos rfl]
    have prints := exec_prn_of_reg ((s.setReg r imm).setPc (s.pc + 3)) ha
    rw [loaded] at prints
    exact ⟨_, _, exec_ldi_of_reg imm s ha, prints, rfl, hostText_append_singleton s.output imm⟩

/-- Settles O7: PRN's next state is that of the register check's two branches. -/
theorem prnEmitsTheRegister : Obligations.PrnEmitsTheRegister :=
  ⟨fun _ _ => rfl, fun _ _ s ha => exec_prn_of_reg s ha, fun _ s ha => exec_prn_of_ge s ha⟩

end Sys2Proof.Machine
end

section
/-! SUPPORT. MUL and ADD (spec/42_alu.md R142, R143): what each does, said once for operands that name registers and once
for a bad operand, and the word arithmetic of the ALU in numbers (R145). -/

namespace Sys2Proof.Machine

/-- The low byte of a product is the product of the numbers modulo 256 (R145). -/
theorem mul_eq_ofNat_mod (va vb : Byte) : va * vb = BitVec.ofNat 8 (va.toNat * vb.toNat % 256) := by
  apply BitVec.eq_of_toNat_eq
  rw [BitVec.toNat_mul, BitVec.toNat_ofNat, Nat.mod_mod]

/-- A sum of bytes is the sum of the numbers modulo 256 (R145). -/
theorem add_eq_ofNat_mod (va vb : Byte) : va + vb = BitVec.ofNat 8 ((va.toNat + vb.toNat) % 256) := by
  apply BitVec.eq_of_toNat_eq
  rw [BitVec.toNat_add, BitVec.toNat_ofNat, Nat.mod_mod]

/-- MUL on two registers: the next state (R142). -/
theorem exec_mul_of_reg {a b : Byte} {ra rb : Reg} (s : State) (ha : a.toNat = ra.val) (hb : b.toNat = rb.val) :
    exec (.mul a b) s = .next ((s.setReg ra (s.reg ra * s.reg rb)).setPc (s.pc + 3)) :=
  withRegs_of_reg ha hb

/-- MUL with an operand that names no register faults (R103). -/
theorem exec_mul_of_ge {a b : Byte} (s : State) (h : 8 ≤ a.toNat ∨ 8 ≤ b.toNat) :
    exec (.mul a b) s = .next (s.raise .illegalRegister s.pc Opcode.mul) :=
  withRegs_of_ge h

/-- ADD on two registers: the next state (R143). -/
theorem exec_add_of_reg {a b : Byte} {ra rb : Reg} (s : State) (ha : a.toNat = ra.val) (hb : b.toNat = rb.val) :
    exec (.add a b) s = .next ((s.setReg ra (s.reg ra + s.reg rb)).setPc (s.pc + 3)) :=
  withRegs_of_reg ha hb

/-- ADD with an operand that names no register faults (R103). -/
theorem exec_add_of_ge {a b : Byte} (s : State) (h : 8 ≤ a.toNat ∨ 8 ≤ b.toNat) :
    exec (.add a b) s = .next (s.raise .illegalRegister s.pc Opcode.add) :=
  withRegs_of_ge h

/-- Settles O9: MUL's next state is that of the register checks' two branches, with the product read as a number. -/
theorem mulKeepsTheLowByte : Obligations.MulKeepsTheLowByte := by
  refine ⟨fun _ _ => rfl, fun a b ra rb s ha hb => ?completes, fun _ _ s bad => exec_mul_of_ge s bad⟩
  case completes =>
    rw [← mul_eq_ofNat_mod]
    exact exec_mul_of_reg s ha hb

/-- Settles O10: ADD's next state is that of the register checks' two branches, with the sum read as a number. -/
theorem addAddsModulo256 : Obligations.AddAddsModulo256 := by
  refine ⟨fun _ _ => rfl, fun a b ra rb s ha hb => ?completes, fun _ _ s bad => exec_add_of_ge s bad⟩
  case completes =>
    rw [← add_eq_ofNat_mod]
    exact exec_add_of_reg s ha hb

end Sys2Proof.Machine
end

section
/-! SUPPORT. RET, JMP, JEQ and JNE (spec/44_control_flow.md R181 to R184): what each does, said once for an operand that
names a register and once for one that names none, and the two ways a conditional jump can go. -/

namespace Sys2Proof.Machine

/-- RET: the next state (R181). -/
theorem exec_ret (s : State) : exec .ret s = .next (s.pop.2.setPc (s.memRead (s.reg sp))) :=
  complete_ret s (s.pop.2.setPc s.pop.1)

/-- JMP through a register: the next state (R182). -/
theorem exec_jmp_of_reg {a : Byte} {r : Reg} (s : State) (ha : a.toNat = r.val) :
    exec (.jmp a) s = .next (s.setPc (s.reg r)) :=
  withReg_of_reg ha

/-- JMP with an operand that names no register faults (R103). -/
theorem exec_jmp_of_ge {a : Byte} (s : State) (ha : 8 ≤ a.toNat) :
    exec (.jmp a) s = .next (s.raise .illegalRegister s.pc Opcode.jmp) :=
  withReg_of_ge ha

/-- JEQ through a register: the next state (R183). -/
theorem exec_jeq_of_reg {a : Byte} {r : Reg} (s : State) (ha : a.toNat = r.val) :
    exec (.jeq a) s = .next (s.branch s.flagE r) :=
  withReg_of_reg ha

/-- JEQ with an operand that names no register faults, whatever `FL` is (R103). -/
theorem exec_jeq_of_ge {a : Byte} (s : State) (ha : 8 ≤ a.toNat) :
    exec (.jeq a) s = .next (s.raise .illegalRegister s.pc Opcode.jeq) :=
  withReg_of_ge ha

/-- JNE through a register: the next state (R184). -/
theorem exec_jne_of_reg {a : Byte} {r : Reg} (s : State) (ha : a.toNat = r.val) :
    exec (.jne a) s = .next (s.branch (!s.flagE) r) :=
  withReg_of_reg ha

/-- JNE with an operand that names no register faults, whatever `FL` is (R103). -/
theorem exec_jne_of_ge {a : Byte} (s : State) (ha : 8 ≤ a.toNat) :
    exec (.jne a) s = .next (s.raise .illegalRegister s.pc Opcode.jne) :=
  withReg_of_ge ha

/-- A branch on the negation of a condition jumps where the condition is false. -/
theorem branch_not (s : State) (c : Bool) (r : Reg) :
    s.branch (!c) r = s.setPc (if c = false then s.reg r else s.pc + 2) := by
  cases c with
  | false => rfl
  | true => rfl

/-- Branches on a condition and on its negation take opposite paths. -/
theorem branch_opposite (s : State) (c : Bool) (r : Reg) :
    ((s.branch c r).pc = s.reg r ∧ (s.branch (!c) r).pc = s.pc + 2) ∨
      ((s.branch c r).pc = s.pc + 2 ∧ (s.branch (!c) r).pc = s.reg r) := by
  cases c with
  | true => exact .inl ⟨rfl, rfl⟩
  | false => exact .inr ⟨rfl, rfl⟩

/-- Settles O15: RET has no operand to check, so its one next state is that of the pop followed by the jump. -/
theorem retPopsThePc : Obligations.RetPopsThePc :=
  ⟨fun _ _ => rfl, exec_ret⟩

/-- Settles O16: JMP's next state is that of the register check's two branches. -/
theorem jmpSetsThePc : Obligations.JmpSetsThePc :=
  ⟨fun _ _ => rfl, fun _ _ s ha => exec_jmp_of_reg s ha, fun _ s ha => exec_jmp_of_ge s ha⟩

/-- Settles O17: JEQ's next state is that of the register check's two branches; the check comes before bit `E` is
read. -/
theorem jeqJumpsOnEqual : Obligations.JeqJumpsOnEqual :=
  ⟨fun _ _ => rfl, fun _ _ s ha => exec_jeq_of_reg s ha, fun _ s ha => exec_jeq_of_ge s ha⟩

/-- Settles O18: JNE's next state is that of the register check's two branches, with the negated bit `E` read as a test
for 0; and JEQ and JNE branch on that bit and on its negation. -/
theorem jneJumpsOnNotEqual : Obligations.JneJumpsOnNotEqual := by
  refine ⟨fun _ _ => rfl, fun a r s ha => ?completes, fun _ s ha => exec_jne_of_ge s ha, fun a r s ha => ?opposite⟩
  case completes =>
    have run := exec_jne_of_reg s ha
    rwa [branch_not] at run
  case opposite =>
    exact ⟨_, _, exec_jeq_of_reg s ha, exec_jne_of_reg s ha, branch_opposite s s.flagE r⟩

end Sys2Proof.Machine
end

section
/-! SUPPORT. Precise faults (spec/60_exceptions.md R201, R202): an instruction with a bad register field does nothing but
raise, and so does every step that faults. -/

namespace Sys2Proof.Machine

/-- An instruction with a register field of 8 or more raises IllegalRegister at its own address and does nothing else
(R103, R204). -/
theorem exec_of_not_wf {i : Instr} (h : i.wf = false) (s : State) :
    exec i s = .next (s.raise .illegalRegister s.pc i.opcode) := by
  have one {a : Byte} (bad : [a].all isReg = false) : 8 ≤ a.toNat := by simpa [isReg] using bad
  have two {a b : Byte} (bad : [a, b].all isReg = false) : 8 ≤ a.toNat ∨ 8 ≤ b.toNat := by
    simpa [isReg, imp_iff_not_or] using bad
  cases i with
  | hlt | ret => cases h
  | ldi | prn | push | pop | call | jmp | jeq | jne => exact withReg_of_ge (one h)
  | mul | add | cmp => exact withRegs_of_ge (two h)

/-- The instruction at `pc` has the opcode byte that stands there (R102). -/
theorem opcode_of_nextInstr {s : State} {i : Instr} (h : s.nextInstr = .ok i) : i.opcode = s.memRead s.pc :=
  opcode_of_decode h

/-- A step that faults does nothing after its fetch but raise the fault at `pc`, with the opcode that stands there (R201,
R202). -/
theorem step_eq_raise_of_faulted {s t : State} (hr : s.runState = .running) (h : step s = .next t)
    (ht : t.runState = .faulted) : ∃ f, t = s.fetch.raise f s.pc (s.memRead s.pc) := by
  obtain ⟨idle, -⟩ | ⟨-, i, read, run⟩ | ⟨-, -, -, run⟩ := step_cases s
  · exact absurd hr idle
  · have ran : exec i s.fetch = .next t := run.symm.trans h
    obtain ⟨-, halts⟩ | ⟨bad, -⟩ | ⟨-, -, kept⟩ := exec_runState_cases ran
    · simp [halts] at ht
    · have raises := exec_of_not_wf bad s.fetch
      rw [opcode_of_nextInstr read] at raises
      exact ⟨.illegalRegister, Host.Outcome.next.inj (ran.symm.trans raises)⟩
    · simp [kept, hr] at ht
  · exact ⟨.illegalInstruction, Host.Outcome.next.inj (h.symm.trans run)⟩

/-- Settles O27: such a step only fetches and raises, and both leave the fields named alone. -/
theorem faultsArePrecise : Obligations.FaultsArePrecise := by
  intro s t hr h ht
  obtain ⟨f, rfl⟩ := step_eq_raise_of_faulted hr h ht
  exact ⟨rfl, rfl, rfl, rfl, rfl, rfl, rfl⟩

end Sys2Proof.Machine
end

section
/-! SUPPORT. The decoder and the encoder (spec/30_encoding.md sections 1 to 4): each reads back what the other writes,
the length of an instruction stands in its opcode byte, and the other 243 byte values are refused. -/

namespace Sys2Proof

/-- Every instruction has the shape of the encoding law, one case a constructor. -/
theorem encodingShape (i : Instr) : Laws.EncodingShape.Statement i := by
  cases i with
  | ldi a imm => exact Laws.EncodingShape.ldi a imm
  | prn a => exact Laws.EncodingShape.prn a
  | hlt => exact Laws.EncodingShape.hlt
  | mul a b => exact Laws.EncodingShape.mul a b
  | add a b => exact Laws.EncodingShape.add a b
  | push a => exact Laws.EncodingShape.push a
  | pop a => exact Laws.EncodingShape.pop a
  | call a => exact Laws.EncodingShape.call a
  | ret => exact Laws.EncodingShape.ret
  | cmp a b => exact Laws.EncodingShape.cmp a b
  | jmp a => exact Laws.EncodingShape.jmp a
  | jeq a => exact Laws.EncodingShape.jeq a
  | jne a => exact Laws.EncodingShape.jne a

/-- The first byte of an encoding is the opcode byte (R70). -/
theorem encode_head? (i : Instr) : (encode i).head? = some i.opcode := (encodingShape i).1

/-- An encoding is as long as its format says (R72). -/
theorem encode_length (i : Instr) : (encode i).length = i.format.length := (encodingShape i).2.1

/-- The length of the format is 1 plus bits 7..6 of the opcode byte (R71, R79). -/
theorem format_length (i : Instr) : i.format.length = 1 + (i.opcode >>> 6).toNat := by
  cases i with
  | hlt | ret => rfl
  | prn | push | pop | call | jmp | jeq | jne | ldi | mul | add | cmp =>
    simp only [Instr.format, Instr.opcode]
    decide

/-- Three bytes that decode to an instruction begin with its encoding. -/
theorem encode_prefix_of_decode {op a b : Byte} {i : Instr} (h : decode op a b = .ok i) :
    encode i <+: [op, a, b] := by
  obtain ⟨rfl, rfl⟩ | ⟨rfl, rfl⟩ | ⟨rfl, rfl⟩ | ⟨rfl, rfl⟩ | ⟨rfl, rfl⟩ | ⟨rfl, rfl⟩ | ⟨rfl, rfl⟩ | ⟨rfl, rfl⟩ |
    ⟨rfl, rfl⟩ | ⟨rfl, rfl⟩ | ⟨rfl, rfl⟩ | ⟨rfl, rfl⟩ | ⟨rfl, rfl⟩ := decode_cases h
  all_goals simp [encode]

/-- Three bytes that begin with the encoding of an instruction decode to it, whatever the bytes it does not use are
(R75). -/
theorem decode_of_encode_prefix {op a b : Byte} {i : Instr} (h : encode i <+: [op, a, b]) :
    decode op a b = .ok i := by
  cases i with
  | hlt | ret =>
    obtain rfl : _ = op := (List.cons_prefix_cons.mp h).1
    rfl
  | prn x | push x | pop x | call x | jmp x | jeq x | jne x =>
    obtain ⟨rfl, rest⟩ := List.cons_prefix_cons.mp h
    obtain ⟨rfl, -⟩ := List.cons_prefix_cons.mp rest
    rfl
  | ldi x y | mul x y | add x y | cmp x y =>
    obtain ⟨rfl, rest⟩ := List.cons_prefix_cons.mp h
    obtain ⟨rfl, last⟩ := List.cons_prefix_cons.mp rest
    obtain ⟨rfl, -⟩ := List.cons_prefix_cons.mp last
    rfl

/-- Settles O32: each case of the decoder begins with its encoding, and an encoding at the front fixes the bytes it
reads. -/
theorem decodeAndEncodeAgree : Obligations.DecodeAndEncodeAgree :=
  fun _ _ _ _ => ⟨encode_prefix_of_decode, decode_of_encode_prefix⟩

/-- Settles O29: the bits of each of the 13 opcode bytes. -/
theorem opcodeFieldsMatchTheTable : Obligations.OpcodeFieldsMatchTheTable := by
  intro i
  cases i with
  | call | ret | jmp | jeq | jne | ldi | prn | hlt | mul | add | push | pop | cmp =>
    simp only [Instr.opcode]
    decide

/-- Settles O30: the length is the format's, which the first byte determines. -/
theorem lengthFromTheOpcodeByte : Obligations.LengthFromTheOpcodeByte := by
  intro i
  have len (k : Instr) : (encode k).length = 1 + (k.opcode >>> 6).toNat := (encode_length k).trans (format_length k)
  refine ⟨encode_head? i, len i, fun j same => ?sameLength⟩
  case sameLength =>
    rw [encode_head?, encode_head?] at same
    rw [len, len, Option.some.inj same]

/-- The decoder refuses exactly the bytes that are no legal opcode (R77, R102). -/
theorem decode_eq_error_iff {op a b : Byte} :
    decode op a b = .error (.illegalOpcode op) ↔ op ∉ Opcode.legal := by
  refine ⟨fun refused legal => ?_, fun illegal => decode_of_not_legal illegal a b⟩
  obtain ⟨i, read⟩ := decode_of_legal legal a b
  cases refused.symm.trans read

/-- Settles O31: the decoder's refusals are the bytes outside the opcode map, which are counted. -/
theorem illegalOpcodesAreTheOther243 : Obligations.IllegalOpcodesAreTheOther243 :=
  ⟨fun _ _ _ => decode_eq_error_iff, by decide +kernel⟩

/-- Settles O33: the decoder computes each of the words. -/
theorem decodedWordsOfTheTable : Obligations.DecodedWordsOfTheTable := by
  unfold Obligations.DecodedWordsOfTheTable
  and_intros
  all_goals rfl

/-- One register field is checked. -/
theorem all_isReg_singleton {a : Byte} : [a].all isReg = true ↔ a.toNat < 8 := by
  simp [isReg]

/-- Two register fields are checked. -/
theorem all_isReg_pair {a b : Byte} : [a, b].all isReg = true ↔ a.toNat < 8 ∧ b.toNat < 8 := by
  simp [isReg]

/-- Settles O23: each format has none, one or two register fields, and every one is checked. -/
theorem registerFieldsOfEachFormat : Obligations.RegisterFieldsOfEachFormat := fun _ _ =>
  ⟨all_isReg_singleton, all_isReg_singleton, rfl, all_isReg_pair, all_isReg_pair, all_isReg_singleton,
    all_isReg_singleton, all_isReg_singleton, rfl, all_isReg_pair, all_isReg_singleton, all_isReg_singleton,
    all_isReg_singleton⟩

/-- An instruction is ill formed exactly if one of its register fields is 8 or more (R103). -/
theorem wf_eq_false_iff {i : Instr} : i.wf = false ↔ ∃ f ∈ i.regFields, 8 ≤ f.toNat := by
  simp [Instr.wf, isReg]

/-- An instruction is well formed exactly if each of its register fields is below 8 (R103). -/
theorem wf_iff {i : Instr} : i.wf = true ↔ ∀ f ∈ i.regFields, f.toNat < 8 := by
  simp [Instr.wf, isReg]

end Sys2Proof
end

section
/-! SUPPORT. HLT, CMP, PUSH, POP and CALL (spec/41_load_output_halt.md R122, spec/42_alu.md R144, spec/43_stack.md
R160, R161, spec/44_control_flow.md R180): what each does, said once for an operand that names a register and once for
one that names none. -/

namespace Sys2Proof.Machine

/-- HLT: the next state (R122, R105). -/
theorem exec_hlt (s : State) : exec .hlt s = .next ((s.setRunState .halted).setPc (s.pc + 1)) :=
  complete_hlt s (s.setRunState .halted)

/-- The whole state after a push: `SP` one less, and the byte in the cell it then names (R54). -/
theorem push_eq (s : State) (v : Byte) :
    s.push v = { s with regs := s.regs.set 7 (s.reg 7 - 1), mem := s.mem.write (s.reg 7 - 1) v } := by
  rw [← State.push_mem]
  rfl

/-- PUSH of a register: the next state (R160). -/
theorem exec_push_of_reg {a : Byte} {r : Reg} (s : State) (ha : a.toNat = r.val) :
    exec (.push a) s = .next ((s.push (s.reg r)).setPc (s.pc + 2)) :=
  withReg_of_reg ha

/-- PUSH with an operand that names no register faults (R103). -/
theorem exec_push_of_ge {a : Byte} (s : State) (ha : 8 ≤ a.toNat) :
    exec (.push a) s = .next (s.raise .illegalRegister s.pc Opcode.push) :=
  withReg_of_ge ha

/-- POP into a register: the next state (R161). -/
theorem exec_pop_of_reg {a : Byte} {r : Reg} (s : State) (ha : a.toNat = r.val) :
    exec (.pop a) s = .next ((s.pop.2.setReg r (s.memRead (s.reg sp))).setPc (s.pc + 2)) :=
  withReg_of_reg ha

/-- POP with an operand that names no register faults (R103). -/
theorem exec_pop_of_ge {a : Byte} (s : State) (ha : 8 ≤ a.toNat) :
    exec (.pop a) s = .next (s.raise .illegalRegister s.pc Opcode.pop) :=
  withReg_of_ge ha

/-- CALL through a register: the next state, its target read after the push (R180, decision D10). -/
theorem exec_call_of_reg {a : Byte} {r : Reg} (s : State) (ha : a.toNat = r.val) :
    exec (.call a) s = .next ((s.push (s.pc + 2)).setPc ((s.push (s.pc + 2)).reg r)) :=
  withReg_of_reg ha

/-- CALL with an operand that names no register faults (R103). -/
theorem exec_call_of_ge {a : Byte} (s : State) (ha : 8 ≤ a.toNat) :
    exec (.call a) s = .next (s.raise .illegalRegister s.pc Opcode.call) :=
  withReg_of_ge ha

/-- CALL's target: the register's value, and for R7 the new SP (decision D10). -/
theorem call_target (s : State) (v : Byte) (r : Reg) :
    (s.push v).reg r = if r = 7 then s.reg 7 - 1 else s.reg r := by
  rw [State.reg_push]
  exact if_congr eq_comm rfl rfl

/-- Settles O8: HLT has no operand to check, so its one next state is that of entering HALTED and the advance. -/
theorem hltEntersHalted : Obligations.HltEntersHalted :=
  ⟨fun _ _ => rfl, exec_hlt⟩

/-- Settles O11: CMP's next state is that of the register checks' two branches, with the flags byte read in numbers. -/
theorem cmpWritesAllFlags : Obligations.CmpWritesAllFlags := by
  refine ⟨fun _ _ => rfl, fun a b ra rb s ha hb => ?completes, fun _ _ s bad => exec_cmp_of_ge s bad⟩
  case completes =>
    rw [← compareFlags_eq]
    exact exec_cmp_of_reg s ha hb

/-- Settles O12: PUSH's next state is that of the register check's two branches, with the push written out. -/
theorem pushStoresTheRegister : Obligations.PushStoresTheRegister := by
  refine ⟨fun _ _ => rfl, fun a r s ha => ?completes, fun _ s ha => exec_push_of_ge s ha⟩
  case completes =>
    rw [exec_push_of_reg s ha, push_eq]
    rfl

/-- Settles O13: POP's next state is that of the register check's two branches. -/
theorem popLoadsTheRegister : Obligations.PopLoadsTheRegister :=
  ⟨fun _ _ => rfl, fun _ _ s ha => exec_pop_of_reg s ha, fun _ s ha => exec_pop_of_ge s ha⟩

/-- Settles O14: CALL's next state is that of the register check's two branches, with the push written out and
the target read after it. -/
theorem callPushesThenJumps : Obligations.CallPushesThenJumps := by
  refine ⟨fun _ _ => rfl, fun a r s ha => ?completes, fun _ s ha => exec_call_of_ge s ha⟩
  case completes =>
    rw [exec_call_of_reg s ha, call_target, push_eq]
    rfl

end Sys2Proof.Machine
end

section
/-! SUPPORT. What a well-formed instruction can do, said once: the relation between a state and the one its handler
and the advance leave (spec/40_controller.md R103 to R106), tied to `exec` in both directions. The frames are read off
its cases. -/

namespace Sys2Proof.Machine

/-- Instruction `i`, its register fields all good, leads from `s` to `t`. -/
inductive Completes (s : State) : Instr → State → Prop where
  | ldi {a : Byte} {r : Reg} (imm : Byte) (ha : a.toNat = r.val) :
      Completes s (.ldi a imm) ((s.setReg r imm).setPc (s.pc + 3))
  | prn {a : Byte} {r : Reg} (ha : a.toNat = r.val) : Completes s (.prn a) ((s.emit (s.reg r)).setPc (s.pc + 2))
  | hlt : Completes s .hlt ((s.setRunState .halted).setPc (s.pc + 1))
  | mul {a b : Byte} {ra rb : Reg} (ha : a.toNat = ra.val) (hb : b.toNat = rb.val) :
      Completes s (.mul a b) ((s.setReg ra (s.reg ra * s.reg rb)).setPc (s.pc + 3))
  | add {a b : Byte} {ra rb : Reg} (ha : a.toNat = ra.val) (hb : b.toNat = rb.val) :
      Completes s (.add a b) ((s.setReg ra (s.reg ra + s.reg rb)).setPc (s.pc + 3))
  | push {a : Byte} {r : Reg} (ha : a.toNat = r.val) : Completes s (.push a) ((s.push (s.reg r)).setPc (s.pc + 2))
  | pop {a : Byte} {r : Reg} (ha : a.toNat = r.val) :
      Completes s (.pop a) ((s.pop.2.setReg r (s.memRead (s.reg sp))).setPc (s.pc + 2))
  | call {a : Byte} {r : Reg} (ha : a.toNat = r.val) :
      Completes s (.call a) ((s.push (s.pc + 2)).setPc ((s.push (s.pc + 2)).reg r))
  | ret : Completes s .ret (s.pop.2.setPc (s.memRead (s.reg sp)))
  | cmp {a b : Byte} {ra rb : Reg} (ha : a.toNat = ra.val) (hb : b.toNat = rb.val) :
      Completes s (.cmp a b) ((s.setFl (compareFlags (s.reg ra) (s.reg rb))).setPc (s.pc + 3))
  | jmp {a : Byte} {r : Reg} (ha : a.toNat = r.val) : Completes s (.jmp a) (s.setPc (s.reg r))
  | jeq {a : Byte} {r : Reg} (ha : a.toNat = r.val) : Completes s (.jeq a) (s.branch s.flagE r)
  | jne {a : Byte} {r : Reg} (ha : a.toNat = r.val) : Completes s (.jne a) (s.branch (!s.flagE) r)

/-- What completes is what `exec` answers. -/
theorem exec_of_completes {i : Instr} {s t : State} (h : Completes s i t) : exec i s = .next t := by
  cases h with
  | ldi imm ha => exact exec_ldi_of_reg imm s ha
  | prn ha => exact exec_prn_of_reg s ha
  | hlt => exact exec_hlt s
  | mul ha hb => exact exec_mul_of_reg s ha hb
  | add ha hb => exact exec_add_of_reg s ha hb
  | push ha => exact exec_push_of_reg s ha
  | pop ha => exact exec_pop_of_reg s ha
  | call ha => exact exec_call_of_reg s ha
  | ret => exact exec_ret s
  | cmp ha hb => exact exec_cmp_of_reg s ha hb
  | jmp ha => exact exec_jmp_of_reg s ha
  | jeq ha => exact exec_jeq_of_reg s ha
  | jne ha => exact exec_jne_of_reg s ha

/-- A byte below 8 names a register. -/
theorem exists_reg {a : Byte} (h : a.toNat < 8) : ∃ r : Reg, a.toNat = r.val := ⟨⟨a.toNat, h⟩, rfl⟩

/-- A well-formed instruction completes, in every state. -/
theorem exists_completes {i : Instr} (h : i.wf = true) (s : State) : ∃ t, Completes s i t := by
  have one {a : Byte} (good : [a].all isReg = true) : ∃ r : Reg, a.toNat = r.val :=
    exists_reg (all_isReg_singleton.mp good)
  have two {a b : Byte} (good : [a, b].all isReg = true) : ∃ ra rb : Reg, a.toNat = ra.val ∧ b.toNat = rb.val :=
    ⟨⟨a.toNat, (all_isReg_pair.mp good).1⟩, ⟨b.toNat, (all_isReg_pair.mp good).2⟩, rfl, rfl⟩
  cases i with
  | hlt => exact ⟨_, .hlt⟩
  | ret => exact ⟨_, .ret⟩
  | ldi a imm => obtain ⟨r, ha⟩ := one h; exact ⟨_, .ldi imm ha⟩
  | prn a => obtain ⟨r, ha⟩ := one h; exact ⟨_, .prn ha⟩
  | push a => obtain ⟨r, ha⟩ := one h; exact ⟨_, .push ha⟩
  | pop a => obtain ⟨r, ha⟩ := one h; exact ⟨_, .pop ha⟩
  | call a => obtain ⟨r, ha⟩ := one h; exact ⟨_, .call ha⟩
  | jmp a => obtain ⟨r, ha⟩ := one h; exact ⟨_, .jmp ha⟩
  | jeq a => obtain ⟨r, ha⟩ := one h; exact ⟨_, .jeq ha⟩
  | jne a => obtain ⟨r, ha⟩ := one h; exact ⟨_, .jne ha⟩
  | mul a b => obtain ⟨ra, rb, ha, hb⟩ := two h; exact ⟨_, .mul ha hb⟩
  | add a b => obtain ⟨ra, rb, ha, hb⟩ := two h; exact ⟨_, .add ha hb⟩
  | cmp a b => obtain ⟨ra, rb, ha, hb⟩ := two h; exact ⟨_, .cmp ha hb⟩

/-- A well-formed instruction answers a state in which it is complete. -/
theorem completes_of_exec {i : Instr} {s t : State} (hw : i.wf = true) (h : exec i s = .next t) : Completes s i t := by
  obtain ⟨u, done⟩ := exists_completes hw s
  rwa [← Host.Outcome.next.inj ((exec_of_completes done).symm.trans h)]

/-- Everything an instruction can do: complete, or raise IllegalRegister and change nothing else. -/
theorem exec_cases (i : Instr) (s : State) :
    (i.wf = true ∧ ∃ t, exec i s = .next t ∧ Completes s i t) ∨
    (i.wf = false ∧ exec i s = .next (s.raise .illegalRegister s.pc i.opcode)) := by
  cases hw : i.wf with
  | true =>
    obtain ⟨t, done⟩ := exists_completes hw s
    exact .inl ⟨rfl, t, exec_of_completes done, done⟩
  | false => exact .inr ⟨rfl, exec_of_not_wf hw s⟩

/-- The same of an answer that is known. -/
theorem cases_of_exec {i : Instr} {s t : State} (h : exec i s = .next t) :
    Completes s i t ∨ (i.wf = false ∧ t = s.raise .illegalRegister s.pc i.opcode) := by
  obtain ⟨-, u, run, done⟩ | ⟨bad, run⟩ := exec_cases i s
  · obtain rfl := Host.Outcome.next.inj (run.symm.trans h)
    exact .inl done
  · exact .inr ⟨bad, Host.Outcome.next.inj (h.symm.trans run)⟩

namespace Completes

variable {s t : State} {i : Instr}

/-- No completed instruction writes the fault record. -/
theorem sameRecord (h : Completes s i t) : SameRecord s t := by
  cases h with
  | _ => exact ⟨rfl, rfl, rfl⟩

/-- No completed instruction writes the latches. -/
theorem sameLatches (h : Completes s i t) : SameLatches s t := by
  cases h with
  | _ => exact ⟨rfl, rfl, rfl⟩

/-- Only CMP writes `FL`. -/
theorem fl_eq (h : Completes s i t) (hi : ∀ a b, i ≠ .cmp a b) : t.fl = s.fl :=
  exec_keeps_fl hi (exec_of_completes h)

/-- Only HLT writes the run state. -/
theorem runState_eq (h : Completes s i t) (hi : i ≠ .hlt) : t.runState = s.runState := by
  cases h with
  | hlt => exact absurd rfl hi
  | _ => rfl

/-- Only PRN emits. -/
theorem output_eq (h : Completes s i t) (hi : ∀ a, i ≠ .prn a) : t.output = s.output := by
  cases h with
  | prn => exact absurd rfl (hi _)
  | _ => rfl

/-- Only PUSH and CALL write memory. -/
theorem mem_eq (h : Completes s i t) (hi : (∀ a, i ≠ .push a) ∧ ∀ a, i ≠ .call a) : t.mem = s.mem := by
  cases h with
  | push => exact absurd rfl (hi.1 _)
  | call => exact absurd rfl (hi.2 _)
  | _ => rfl

/-- No instruction writes a cell other than the one below SP. -/
theorem memRead_eq (h : Completes s i t) {x : Byte} (hx : x ≠ s.reg sp - 1) : t.memRead x = s.memRead x := by
  cases h with
  | push | call => rw [State.memRead_setPc, State.memRead_push, if_neg hx]
  | _ => rfl

/-- Every instruction keeps memory's canonical form. -/
theorem mem_wf (h : Completes s i t) (hs : s.mem.wf) : t.mem.wf := by
  cases h with
  | push | call => exact State.push_wf hs _
  | _ => exact hs

/-- CMP leaves one flag set, and no other instruction writes `FL` (R144). -/
theorem fl_legal (h : Completes s i t) (hs : s.fl ∈ [(0 : Byte), 1, 2, 4]) : t.fl ∈ [(0 : Byte), 1, 2, 4] := by
  cases h with
  | cmp =>
    rw [State.setPc_fl, State.setFl_fl, compareFlags_eq]
    split_ifs <;> decide
  | _ => exact hs

end Completes

end Sys2Proof.Machine
end

section
/-! SUPPORT. What instructions and steps answer, which instruction writes what, and the frames, each read off the
cases of a completed instruction. -/

namespace Sys2Proof.Machine

/-- A byte written to a register shows in that register only. -/
theorem eq_of_reg_setReg_ne {s : State} {q r : Reg} {v : Byte} (h : (s.setReg q v).reg r ≠ s.reg r) : q = r := by
  by_contra hne
  exact h (by rw [State.reg_setReg, if_neg hne])

/-- A push writes `SP` only. -/
theorem eq_of_reg_push_ne {s : State} {r : Reg} {v : Byte} (h : (s.push v).reg r ≠ s.reg r) : r = 7 := by
  by_contra hne
  exact h (by rw [State.reg_push, if_neg (Ne.symm hne)])

/-- A pop writes `SP` only. -/
theorem eq_of_reg_pop_ne {s : State} {r : Reg} (h : s.pop.2.reg r ≠ s.reg r) : r = 7 := by
  by_contra hne
  exact h (by rw [State.reg_pop, if_neg (Ne.symm hne)])

/-- Every instruction answers a next state. -/
theorem exists_exec (i : Instr) (s : State) : ∃ t, exec i s = .next t := by
  obtain ⟨-, t, run, -⟩ | ⟨-, run⟩ := exec_cases i s
  · exact ⟨t, run⟩
  · exact ⟨_, run⟩

/-- Every step answers a next state (R107). -/
theorem exists_step (s : State) : ∃ t, step s = .next t := by
  obtain ⟨-, stands⟩ | ⟨-, i, -, run⟩ | ⟨-, -, -, faults⟩ := step_cases s
  · exact ⟨_, stands⟩
  · rw [run]
    exact exists_exec i s.fetch
  · exact ⟨_, faults⟩

/-- Settles O24: the cases of an instruction, and those of a step. -/
theorem everyStepAnswersANextState : Obligations.EveryStepAnswersANextState :=
  fun s => ⟨exists_step s, fun i => exists_exec i s⟩

/-- Settles O22: an ill-formed instruction only raises, and a well-formed one completes, which keeps the record. -/
theorem illegalRegisterFaultsExactly : Obligations.IllegalRegisterFaultsExactly := by
  refine fun i s => ⟨fun bad => exec_of_not_wf (wf_eq_false_iff.mpr bad) s, fun good => ?completes⟩
  case completes =>
    obtain ⟨t, done⟩ := exists_completes (wf_iff.mpr good) s
    refine ⟨t, exec_of_completes done, done.sameRecord, ?_⟩
    by_cases hi : i = .hlt
    · subst hi
      cases done
      exact .inr rfl
    · exact .inl (done.runState_eq hi)

/-- Everything a step of a RUNNING state can do to the run state, with its cause. -/
theorem step_runState_cases {s t : State} (hr : s.runState = .running) (h : step s = .next t) :
    (t.runState = .halted ∧ s.nextInstr = .ok .hlt) ∨
    (t.runState = .faulted ∧ ∃ e, s.nextInstr = .error e) ∨
    (t.runState = .faulted ∧ ∃ i, s.nextInstr = .ok i ∧ i.wf = false) ∨
    (t.runState = .running ∧ ∃ i, s.nextInstr = .ok i ∧ i.wf = true ∧ i ≠ .hlt) := by
  obtain ⟨idle, -⟩ | ⟨-, i, read, run⟩ | ⟨-, -, refused, run⟩ := step_cases s
  · exact absurd hr idle
  · obtain ⟨rfl, halts⟩ | ⟨bad, faults⟩ | ⟨good, notHlt, kept⟩ := exec_runState_cases (run.symm.trans h)
    · exact .inl ⟨halts, read⟩
    · exact .inr (.inr (.inl ⟨faults, i, read, bad⟩))
    · exact .inr (.inr (.inr ⟨kept.trans hr, i, read, good, notHlt⟩))
  · obtain rfl := Host.Outcome.next.inj (run.symm.trans h)
    exact .inr (.inl ⟨rfl, refused⟩)

/-- Settles O26: the cases of a step exclude one another, in the run state and in what the decoder reads. -/
theorem runStateAfterAStep : Obligations.RunStateAfterAStep := by
  intro s t hr h
  obtain ⟨after, read⟩ | ⟨after, e, read⟩ | ⟨after, i, read, bad⟩ | ⟨after, i, read, good, notHlt⟩ :=
    step_runState_cases hr h
  · have good : Instr.hlt.wf = true := rfl
    simp [after, read, good]
  · simp [after, read]
  · have notHlt : i ≠ .hlt := by rintro rfl; cases bad
    simp [after, read, bad, notHlt]
  · simp [after, read, good, notHlt]

/-- A completed instruction with `P = 0` advances `pc` by the length of its format (R105). -/
theorem Completes.pc_eq {s t : State} {i : Instr} (h : Completes s i t) (hp : Opcode.setsPc i.opcode = false) :
    t.pc = s.pc + BitVec.ofNat 8 i.format.length := by
  cases h with
  | ldi | prn | hlt | mul | add | push | pop | cmp => rfl
  | call | ret | jmp | jeq | jne => exact absurd hp (by simp only [Instr.opcode]; decide)

/-- The length of the format, as a byte, is `1 + N` (R71, R79). -/
theorem ofNat_format_length (i : Instr) : BitVec.ofNat 8 i.format.length = (1 : Byte) + i.opcode >>> 6 := by
  rw [format_length, BitVec.ofNat_add, BitVec.ofNat_toNat, BitVec.setWidth_eq]
  rfl

/-- Settles O28: the advance of a completed instruction is the length of its format, which is `1 + N`. -/
theorem autoAdvanceByLength : Obligations.AutoAdvanceByLength := by
  intro i s hw hp
  obtain ⟨t, done⟩ := exists_completes hw s
  have length : s.pc + 1 + (i.opcode >>> 6) = s.pc + BitVec.ofNat 8 i.format.length := by
    rw [ofNat_format_length, BitVec.add_assoc]
    rfl
  exact ⟨t, exec_of_completes done, (done.pc_eq hp).trans length.symm, length⟩

/-- Settles O40: a fault writes no register, and each completed instruction only those of its own update. -/
theorem registersAreWrittenOnlyByTheirInstructions : Obligations.RegistersAreWrittenOnlyByTheirInstructions := by
  intro i s t r h changed
  obtain done | ⟨-, rfl⟩ := cases_of_exec h
  · cases done with
    | ldi _ ha | add ha | mul ha =>
      obtain rfl := eq_of_reg_setReg_ne changed
      exact ha
    | @pop _ q ha =>
      by_cases hq : q = r
      · exact .inl (hq ▸ ha)
      · rw [State.reg_setPc, State.reg_setReg, if_neg hq] at changed
        exact .inr (eq_of_reg_pop_ne changed)
    | push | call =>
      rw [State.reg_setPc] at changed
      exact eq_of_reg_push_ne changed
    | ret => exact eq_of_reg_pop_ne changed
    | prn | hlt | cmp | jmp | jeq | jne => exact changed rfl
  · exact absurd rfl changed

/-- Settles O42: a fault writes no cell, and a completed instruction none but the one below SP, in PUSH and CALL. -/
theorem memoryIsWrittenOnlyByPushAndCall : Obligations.MemoryIsWrittenOnlyByPushAndCall := by
  intro i s t h
  obtain done | ⟨-, rfl⟩ := cases_of_exec h
  · exact ⟨done.mem_eq, fun x => done.memRead_eq⟩
  · exact ⟨fun _ => rfl, fun _ _ => rfl⟩

/-- No transfer is seen where the output is the same. -/
theorem outTransfer_of_output_eq {s t : State} (h : t.output = s.output) : outTransfer s t = none := by
  simp [outTransfer, h]

/-- One byte more is one transfer (R36). -/
theorem outTransfer_of_output_append {s t : State} {v : Byte} (h : t.output = s.output ++ [v]) :
    outTransfer s t = some v := by
  simp [outTransfer, h]

/-- An instruction that is no PRN on a register keeps the output. -/
theorem exec_output_eq {i : Instr} {s t : State} (h : exec i s = .next t) (hi : ∀ a, i = .prn a → 8 ≤ a.toNat) :
    t.output = s.output := by
  obtain done | ⟨-, rfl⟩ := cases_of_exec h
  · cases done with
    | @prn _ r ha =>
      have := hi _ rfl
      omega
    | _ => rfl
  · rfl

/-- Settles O43: the step runs the instruction the decoder reads, which emits exactly if it is a PRN on a register. -/
theorem outputGrowsOnlyByPrn : Obligations.OutputGrowsOnlyByPrn := by
  intro s t hr h
  refine ⟨fun a r read ha => ?emits, fun other => ?silent⟩
  case emits =>
    have run := (exec_prn_of_reg s.fetch ha).symm.trans ((step_of_ok hr read).symm.trans h)
    obtain rfl := Host.Outcome.next.inj run
    exact ⟨rfl, outTransfer_of_output_append rfl⟩
  case silent =>
    suffices same : t.output = s.output from ⟨same, outTransfer_of_output_eq same⟩
    obtain ⟨idle, -⟩ | ⟨-, i, read, run⟩ | ⟨-, -, -, run⟩ := step_cases s
    · exact absurd hr idle
    · exact exec_output_eq (s := s.fetch) (run.symm.trans h) fun a hi => other a (hi ▸ read)
    · obtain rfl := Host.Outcome.next.inj (run.symm.trans h)
      rfl

end Sys2Proof.Machine
end

section
/-! SUPPORT. The frames of the instructions (what each leaves alone), and the fault code 2 that none of them leaves. -/

namespace Sys2Proof.Machine

/-- An instruction other than PUSH and CALL leaves every cell alone. -/
theorem Completes.memRead_eq_of {s t : State} {i : Instr} (h : Completes s i t)
    (hi : (∀ a, i ≠ .push a) ∧ ∀ a, i ≠ .call a) (x : Byte) : t.memRead x = s.memRead x :=
  congrArg (Memory.read · x) (h.mem_eq hi)

/-- Settles O44: a register that changed is one the instruction may write, and none of the four writes the rest. -/
theorem frameOfRegisterWriters : Obligations.FrameOfRegisterWriters := by
  intro i a b d s ha hw hi
  obtain ⟨t, done⟩ := exists_completes hw s
  have run := exec_of_completes done
  have notStore : (∀ x, i ≠ .push x) ∧ ∀ x, i ≠ .call x := by obtain rfl | rfl | rfl | rfl := hi <;> simp
  have notCmp : ∀ x y, i ≠ .cmp x y := by obtain rfl | rfl | rfl | rfl := hi <;> simp
  have notHlt : i ≠ .hlt := by obtain rfl | rfl | rfl | rfl := hi <;> simp
  have notPrn : ∀ x, i ≠ .prn x := by obtain rfl | rfl | rfl | rfl := hi <;> simp
  refine ⟨t, run, fun r hrd hr7 => ?registers, done.memRead_eq_of notStore, done.fl_eq notCmp,
    done.runState_eq notHlt, done.output_eq notPrn, done.sameRecord, done.sameLatches⟩
  case registers =>
    by_contra changed
    have written := registersAreWrittenOnlyByTheirInstructions i s t r run changed
    have notNamed : a.toNat ≠ r.val := fun named => hrd (Fin.ext (named.symm.trans ha))
    obtain rfl | rfl | rfl | rfl := hi
    · exact notNamed written
    · exact notNamed written
    · exact notNamed written
    · exact written.elim notNamed (hr7 rfl)

/-- Settles O45: PUSH and CALL change no register but SP, no cell but the one below it, and none of the rest. -/
theorem frameOfStoringInstructions : Obligations.FrameOfStoringInstructions := by
  intro i a s hw hi
  obtain ⟨t, done⟩ := exists_completes hw s
  have run := exec_of_completes done
  have notCmp : ∀ x y, i ≠ .cmp x y := by obtain rfl | rfl := hi <;> simp
  have notHlt : i ≠ .hlt := by obtain rfl | rfl := hi <;> simp
  have notPrn : ∀ x, i ≠ .prn x := by obtain rfl | rfl := hi <;> simp
  refine ⟨t, run, fun r hr => ?registers, fun x => done.memRead_eq, done.fl_eq notCmp, done.runState_eq notHlt,
    done.output_eq notPrn, done.sameRecord, done.sameLatches⟩
  case registers =>
    by_contra changed
    have written := registersAreWrittenOnlyByTheirInstructions i s t r run changed
    obtain rfl | rfl := hi
    · exact hr written
    · exact hr written

/-- Settles O46: none of the seven writes a cell, only RET writes a register, and FL, the run state and the output each
have one writer among them. -/
theorem frameOfTheOtherInstructions : Obligations.FrameOfTheOtherInstructions := by
  intro i a b s hw hi
  obtain ⟨t, done⟩ := exists_completes hw s
  have run := exec_of_completes done
  have notStore : (∀ x, i ≠ .push x) ∧ ∀ x, i ≠ .call x := by
    obtain rfl | rfl | rfl | rfl | rfl | rfl | rfl := hi <;> simp
  have onlyCmp (hne : i ≠ .cmp a b) : ∀ x y, i ≠ .cmp x y := by
    obtain rfl | rfl | rfl | rfl | rfl | rfl | rfl := hi <;> simp at hne ⊢
  have onlyPrn (hne : i ≠ .prn a) : ∀ x, i ≠ .prn x := by
    obtain rfl | rfl | rfl | rfl | rfl | rfl | rfl := hi <;> simp at hne ⊢
  refine ⟨t, run, fun r hr => ?registers, done.memRead_eq_of notStore, fun hne => done.fl_eq (onlyCmp hne),
    done.runState_eq, fun hne => done.output_eq (onlyPrn hne), done.sameRecord, done.sameLatches⟩
  case registers =>
    by_contra changed
    have written := registersAreWrittenOnlyByTheirInstructions i s t r run changed
    obtain rfl | rfl | rfl | rfl | rfl | rfl | rfl := hi
    · exact written
    · exact written
    · exact written
    · exact hr rfl written
    · exact written
    · exact written
    · exact written

/-- No instruction leaves FAULT_CODE 2 that did not find it. -/
theorem exec_faultCode_two {i : Instr} {s t : State} (h : exec i s = .next t) (ht : t.faultCode = 2) :
    s.faultCode = 2 := by
  obtain done | ⟨-, rfl⟩ := cases_of_exec h
  · exact done.sameRecord.1.symm.trans ht
  · exact absurd (show (3 : BitVec 2) = 2 from ht) (by decide)

/-- Settles O51: the ALU raises before it writes; a completed instruction keeps the fault code, and the faults that do
occur have the codes 1 and 3. -/
theorem unimplementedAluOpNeverOccurs : Obligations.UnimplementedAluOpNeverOccurs := by
  refine ⟨fun _ _ _ _ _ => rfl, fun i s t => exec_faultCode_two, fun s t h ht => ?step⟩
  case step =>
    obtain ⟨-, run⟩ | ⟨-, i, -, run⟩ | ⟨-, -, -, run⟩ := step_cases s
    · obtain rfl := Host.Outcome.next.inj (run.symm.trans h)
      exact ht
    · exact exec_faultCode_two (s := s.fetch) (run.symm.trans h) ht
    · obtain rfl := Host.Outcome.next.inj (run.symm.trans h)
      exact absurd (show (1 : BitVec 2) = 2 from ht) (by decide)

end Sys2Proof.Machine
end

section
/-! SUPPORT. Instructions in sequence and at the edges of the stack: each result is that of the whole next states, put
one after the other. -/

namespace Sys2Proof.Machine

/-- Settles O5: the next states of PUSH and POP at the SP values where the arithmetic wraps. -/
theorem stackWrapsAndNeverFaults : Obligations.StackWrapsAndNeverFaults := by
  intro a r s ha
  refine ⟨fun hsp => ⟨_, exec_push_of_reg s ha, ?pushAtBottom⟩, fun hsp hr => ⟨_, exec_pop_of_reg s ha, ?popEmpty⟩,
    fun hsp hr => ⟨_, exec_pop_of_reg s ha, ?popAtTop⟩⟩
  case pushAtBottom => exact ⟨by simp [hsp], by simp [hsp], rfl⟩
  case popEmpty => exact ⟨by simp [hsp], by simp [hsp, hr], rfl⟩
  case popAtTop => exact ⟨by simp [hsp], by simp [hsp, hr], rfl⟩

/-- The byte a PUSH stored is the one the next pop reads. -/
theorem memRead_push_sp (s : State) (v : Byte) : (s.push v).memRead ((s.push v).reg sp) = v := by
  rw [State.reg_push, if_pos rfl, State.memRead_push, if_pos rfl]

/-- SP after a push and a pop is as before. -/
theorem reg_sp_push_add_one (s : State) (v : Byte) : (s.push v).reg sp + 1 = s.reg sp := by
  rw [State.reg_push, if_pos rfl, BitVec.sub_add_cancel]

/-- Settles O47: the pop reads the byte the push stored, and takes SP back before the destination is written. -/
theorem pushThenPopRoundTrip : Obligations.PushThenPopRoundTrip := by
  intro a b r q s ha hb
  refine ⟨_, _, exec_push_of_reg s ha, exec_pop_of_reg _ hb, ?popped, fun hq => ?pointer, fun p hp hpq => ?other, ?pc⟩
  case popped =>
    rw [State.reg_setPc, State.reg_setReg, if_pos rfl]
    exact memRead_push_sp s (s.reg r)
  case pointer =>
    rw [State.reg_setPc, State.reg_setReg, if_neg hq, State.reg_pop, if_pos rfl]
    exact reg_sp_push_add_one s (s.reg r)
  case other =>
    rw [State.reg_setPc, State.reg_setReg, if_neg hpq.symm, State.reg_pop, if_neg hp.symm, State.reg_setPc,
      State.reg_push, if_neg hp.symm]
  case pc => exact BitVec.add_assoc s.pc 2 2

/-- Settles O48: RET pops the address the CALL pushed, if SP and the byte there are as the CALL left them. -/
theorem callThenRetReturns : Obligations.CallThenRetReturns := by
  intro a r s ha
  refine ⟨_, exec_call_of_reg s ha, fun u hsp htop => ⟨_, exec_ret u, ?pc, ?pointer⟩⟩
  case pc => exact htop.trans (memRead_push_sp s (s.pc + 2))
  case pointer =>
    rw [State.reg_setPc, State.reg_pop, if_pos rfl, hsp]
    exact reg_sp_push_add_one s (s.pc + 2)

/-- Bit `E` of CMP's flags says whether the bytes are equal (R144). -/
theorem compareFlags_getLsbD_zero (va vb : Byte) : (compareFlags va vb).getLsbD 0 = decide (va = vb) := by
  rw [compareFlags_eq]
  obtain h | h | h := lt_trichotomy va.toNat vb.toNat
  · have hne : va ≠ vb := fun e => by simp [e] at h
    simp [h, hne]
  · simp [BitVec.eq_of_toNat_eq h]
  · have hne : va ≠ vb := fun e => by simp [e] at h
    simp [h, h.not_gt, hne]

/-- Bit `E` of the state CMP leaves. -/
theorem flagE_of_compareFlags (s : State) (va vb pc : Byte) :
    ((s.setFl (compareFlags va vb)).setPc pc).flagE = decide (va = vb) :=
  compareFlags_getLsbD_zero va vb

/-- Settles O49: bit `E` after the CMP is the equality of the registers, and the jumps branch on it. -/
theorem compareThenBranch : Obligations.CompareThenBranch := by
  intro a b c ra rb rc s ha hb hc
  refine ⟨_, _, _, exec_cmp_of_reg s ha hb, exec_jeq_of_reg _ hc, exec_jne_of_reg _ hc, fun heq => ?equal,
    fun hne => ?different⟩
  case equal =>
    rw [State.branch_pc, State.branch_pc, flagE_of_compareFlags, decide_eq_true heq]
    exact ⟨rfl, BitVec.add_assoc s.pc 3 2⟩
  case different =>
    rw [State.branch_pc, State.branch_pc, flagE_of_compareFlags, decide_eq_false hne]
    exact ⟨BitVec.add_assoc s.pc 3 2, rfl⟩

end Sys2Proof.Machine
end

section
/-! SUPPORT. What a step reads (spec/40_controller.md R101, R102, spec/30_encoding.md R75): the three bytes at `pc`,
of which an instruction uses those of its format, and never the latches of the step before. -/

namespace Sys2Proof.Machine

/-- Settles O19: both outcomes of the decoder, each on the fetched state. -/
theorem stepRunsTheDecodedInstruction : Obligations.StepRunsTheDecodedInstruction :=
  fun _ hr => ⟨fun _ read => step_of_ok hr read, fun _ refused => ⟨_, step_of_error hr refused, rfl, rfl, rfl⟩⟩

/-- Settles O20: the decoder refuses such a byte, and the step raises. -/
theorem illegalOpcodeFaults : Obligations.IllegalOpcodeFaults :=
  fun _ hr illegal => step_of_error hr (decode_of_not_legal illegal _ _)

/-- Settles O21: the record update of `raise`, with the code of each of the three faults. -/
theorem raiseWritesOnlyStateAndRecord : Obligations.RaiseWritesOnlyStateAndRecord := by
  intro s f addr op
  cases f with
  | illegalInstruction => rfl
  | unimplementedAluOp => rfl
  | illegalRegister => rfl

/-- Settles O39: the fetch overwrites all three latches before anything is decoded or run. -/
theorem noStepReadsTheOldLatches : Obligations.NoStepReadsTheOldLatches := by
  intro s x y z hr
  cases read : s.nextInstr with
  | ok i => exact (step_of_ok (s := { s with ir := x, opa := y, opb := z }) hr read).trans (step_of_ok hr read).symm
  | error e =>
    exact (step_of_error (s := { s with ir := x, opa := y, opb := z }) hr read).trans (step_of_error hr read).symm

/-- The decoder reads no operand byte that the opcode's `N` does not count (R71, R75). -/
theorem decode_of_same_used_bytes {op a b a' b' : Byte} {i : Instr} (h : decode op a b = .ok i)
    (used : (i.opcode >>> 6).toNat = 0 ∨ ((i.opcode >>> 6).toNat = 1 ∧ a' = a)) : decode op a' b' = .ok i := by
  apply decode_of_encode_prefix
  have taken := List.prefix_iff_eq_take.mp (encode_prefix_of_decode h)
  rw [encode_length, format_length] at taken
  obtain none | ⟨one, rfl⟩ := used
  · rw [taken, none]
    exact ⟨[a', b'], rfl⟩
  · rw [taken, one]
    exact ⟨[b'], rfl⟩

/-- The same state with another memory and other latches. -/
def State.withMemAndLatches (s : State) (m : Memory) (x y z : Byte) : State :=
  { s with mem := m, ir := x, opa := y, opb := z }

/-- Pushes of the same byte at the same SP leave equal bytes in every cell that held equal bytes. -/
theorem memRead_push_congr {s t : State} {c : Byte} (hsp : t.reg sp = s.reg sp) (hc : t.memRead c = s.memRead c)
    (v : Byte) : (t.push v).memRead c = (s.push v).memRead c := by
  rw [State.memRead_push, State.memRead_push, hsp, hc]

/-- A completed instruction uses no cell but the one at SP, and no latch: with another memory and other latches it
does the same, and equal cells stay equal. -/
theorem Completes.withMemAndLatches {s u : State} {i : Instr} (h : Completes s i u) {m : Memory}
    (hsp : m.read (s.reg sp) = s.memRead (s.reg sp)) (x y z : Byte) :
    ∃ m', Completes (s.withMemAndLatches m x y z) i (u.withMemAndLatches m' x y z) ∧
      ∀ c, m.read c = s.memRead c → m'.read c = u.memRead c := by
  have top : (s.withMemAndLatches m x y z).memRead ((s.withMemAndLatches m x y z).reg sp) = s.memRead (s.reg sp) := hsp
  cases h with
  | ldi imm ha => exact ⟨m, .ldi imm ha, fun _ => id⟩
  | prn ha => exact ⟨m, .prn ha, fun _ => id⟩
  | hlt => exact ⟨m, .hlt, fun _ => id⟩
  | mul ha hb => exact ⟨m, .mul ha hb, fun _ => id⟩
  | add ha hb => exact ⟨m, .add ha hb, fun _ => id⟩
  | push ha => exact ⟨_, .push ha, fun c hc => memRead_push_congr (s := s) (t := s.withMemAndLatches m x y z) rfl hc _⟩
  | pop ha =>
    have done := Completes.pop (s := s.withMemAndLatches m x y z) ha
    rw [top] at done
    exact ⟨m, done, fun _ => id⟩
  | call ha => exact ⟨_, .call ha, fun c hc => memRead_push_congr (s := s) (t := s.withMemAndLatches m x y z) rfl hc _⟩
  | ret =>
    have done := Completes.ret (s := s.withMemAndLatches m x y z)
    rw [top] at done
    exact ⟨m, done, fun _ => id⟩
  | cmp ha hb => exact ⟨m, .cmp ha hb, fun _ => id⟩
  | jmp ha => exact ⟨m, .jmp ha, fun _ => id⟩
  | jeq ha => exact ⟨m, .jeq ha, fun _ => id⟩
  | jne ha => exact ⟨m, .jne ha, fun _ => id⟩

/-- So does every instruction, completed or not. -/
theorem exec_withMemAndLatches {i : Instr} {s : State} {m : Memory}
    (hsp : m.read (s.reg sp) = s.memRead (s.reg sp)) (x y z : Byte) :
    ∃ u m', exec i s = .next u ∧ exec i (s.withMemAndLatches m x y z) = .next (u.withMemAndLatches m' x y z) ∧
      ∀ c, m.read c = s.memRead c → m'.read c = u.memRead c := by
  obtain ⟨-, u, run, done⟩ | ⟨bad, run⟩ := exec_cases i s
  · obtain ⟨m', done', cells⟩ := done.withMemAndLatches hsp x y z
    exact ⟨u, m', run, exec_of_completes done', cells⟩
  · exact ⟨_, m, run, exec_of_not_wf bad _, fun _ => id⟩

/-- Settles O34: the used bytes decide the instruction, and the instruction does the same over both memories. -/
theorem unusedOperandBytesHaveNoEffect : Obligations.UnusedOperandBytesHaveNoEffect := by
  have sameInstr (s t : State) (i : Instr) (read : s.nextInstr = .ok i) (hop : t.memRead t.pc = s.memRead s.pc)
      (used : (i.opcode >>> 6).toNat = 0 ∨
        ((i.opcode >>> 6).toNat = 1 ∧ t.memRead (t.pc + 1) = s.memRead (s.pc + 1))) : t.nextInstr = .ok i := by
    rw [State.nextInstr, hop]
    exact decode_of_same_used_bytes read used
  refine ⟨sameInstr, fun s t i hr hst read hop used hsp => ?step⟩
  case step =>
    obtain ⟨m, rfl⟩ : ∃ m, t = { s with mem := m } := ⟨t.mem, by rw [← hst]⟩
    obtain ⟨u, m', run, run', cells⟩ := exec_withMemAndLatches (i := i) (s := s.fetch) hsp
      (m.read s.pc) (m.read (s.pc + 1)) (m.read (s.pc + 2))
    exact ⟨u, _, (step_of_ok hr read).trans run,
      (step_of_ok (s := { s with mem := m }) hr (sameInstr s _ i read hop used)).trans run',
      rfl, rfl, rfl, rfl, ⟨rfl, rfl, rfl⟩, rfl, cells⟩

end Sys2Proof.Machine
end

section
/-! SUPPORT. Stores into code (spec/20_memory.md section 5, decision D19): the fetch of the next step reads the byte
that was stored, and the operand of the storing instruction was read before. -/

namespace Sys2Proof.Machine

/-- A byte is not one of the two after it. -/
theorem add_one_ne_self (x : Byte) : x + 1 ≠ x := by bv_omega

theorem add_two_ne_self (x : Byte) : x + 2 ≠ x := by bv_omega

/-- The byte a push stores stands in the cell below SP. -/
theorem memRead_push_of_eq (s : State) (v : Byte) {x : Byte} (hx : s.reg sp - 1 = x) : (s.push v).memRead x = v := by
  rw [State.memRead_push, if_pos hx.symm]

/-- With `pc` at the cell a push stored to, the next instruction is decoded from the pushed byte and the two bytes above
it. -/
theorem nextInstr_push_setPc (s : State) (v : Byte) {pc : Byte} (hpc : s.reg sp - 1 = pc) :
    ((s.push v).setPc pc).nextInstr = decode v (s.memRead (s.reg sp)) (s.memRead (s.reg sp + 1)) := by
  subst hpc
  have next : s.reg sp - 1 + 1 = s.reg sp := BitVec.sub_add_cancel _ _
  have after : s.reg sp - 1 + 2 = s.reg sp + 1 := by bv_omega
  rw [State.nextInstr, State.setPc_pc, State.memRead_setPc, State.memRead_setPc, State.memRead_setPc,
    State.memRead_push, if_pos rfl, State.memRead_push, if_neg (add_one_ne_self _), State.memRead_push,
    if_neg (add_two_ne_self _), next, after]

section
variable {s : State} {r : Reg} (hr : s.runState = .running) (ha : (s.memRead (s.pc + 1)).toNat = r.val)
include hr ha

/-- A step at a PUSH of a register. -/
theorem step_push (hop : s.memRead s.pc = Opcode.push) :
    step s = .next ((s.fetch.push (s.reg r)).setPc (s.pc + 2)) := by
  have read : s.nextInstr = .ok (.push (s.memRead (s.pc + 1))) := by rw [State.nextInstr, hop]; rfl
  exact (step_of_ok hr read).trans (exec_push_of_reg s.fetch ha)

/-- A step at a CALL through a register. -/
theorem step_call (hop : s.memRead s.pc = Opcode.call) :
    step s = .next ((s.fetch.push (s.pc + 2)).setPc (if r = 7 then s.reg 7 - 1 else s.reg r)) := by
  have read : s.nextInstr = .ok (.call (s.memRead (s.pc + 1))) := by rw [State.nextInstr, hop]; rfl
  rw [step_of_ok hr read, exec_call_of_reg s.fetch ha, call_target]
  rfl

end

/-- Settles O50: the step's whole next state, read at its own operand byte and at its new `pc`. -/
theorem storesIntoCodeAreSeenByTheNextFetch : Obligations.StoresIntoCodeAreSeenByTheNextFetch := by
  rintro _ r s hr rfl ha
  refine ⟨fun hop => ⟨fun hstore => ?pushOwn, fun hstore => ?pushNext⟩,
    fun hop => ⟨fun hstore => ?callOwn, fun hjump => ?callNext⟩⟩
  case pushOwn => exact ⟨_, step_push hr ha hop, memRead_push_of_eq s.fetch _ hstore, rfl⟩
  case pushNext =>
    have next := nextInstr_push_setPc s.fetch (s.reg r) hstore
    have above : s.reg 7 = s.pc + 3 := by bv_omega
    have second : s.reg 7 + 1 = s.pc + 4 := by bv_omega
    refine ⟨_, step_push hr ha hop, hr, rfl, memRead_push_of_eq s.fetch _ hstore, ?_⟩
    rw [next, ← above, ← second]
    rfl
  case callOwn => exact ⟨_, step_call hr ha hop, memRead_push_of_eq s.fetch _ hstore, rfl⟩
  case callNext =>
    have target : (if r = 7 then s.reg 7 - 1 else s.reg r) = s.reg 7 - 1 :=
      ite_eq_left_iff.mpr fun hne => hjump.resolve_left hne
    exact ⟨_, step_call hr ha hop, hr, target, memRead_push_of_eq s.fetch _ target.symm,
      nextInstr_push_setPc s.fetch _ target.symm⟩

end Sys2Proof.Machine
end

section
/-! SUPPORT. The invariant of the machine (spec/10_state.md sections 3, 4 and 6): reset meets it, and every step and
every host input keeps it. -/

namespace Sys2Proof.Machine

/-- Settles O35: the values of the reset table. -/
theorem invariantHoldsAtReset : Obligations.InvariantHoldsAtReset where
  memCanonical := Memory.reset_wf
  flagsLegal := by decide
  idleIsReset := fun _ => rfl
  recordClear := fun _ => ⟨rfl, rfl, rfl⟩
  recordPlace := fun faulted => by cases faulted
  recordCause := fun faulted => by cases faulted
  haltedAtHlt := fun halted => by cases halted

/-- A fault raised after the fetch, at `pc` and with the opcode that stands there, keeps the invariant if its cause is
one of the two that occur. -/
theorem inv_raise {s : State} {f : Fault} (hs : s.Inv)
    (cause : (f = .illegalInstruction ∧ ¬ LegalOpcode (s.memRead s.pc)) ∨
      (f = .illegalRegister ∧ ∃ i, s.nextInstr = .ok i ∧ i.wf = false)) :
    (s.fetch.raise f s.pc (s.memRead s.pc)).Inv where
  memCanonical := hs.memCanonical
  flagsLegal := hs.flagsLegal
  idleIsReset := fun idle => by cases idle
  recordClear := fun notFaulted => absurd rfl notFaulted
  recordPlace := fun _ => ⟨rfl, rfl⟩
  recordCause := fun _ => cause.imp (And.imp_left (congrArg Fault.code)) (And.imp_left (congrArg Fault.code))
  haltedAtHlt := fun halted => by cases halted

/-- A completed HLT leaves `pc` just after it. -/
theorem Completes.memRead_pc_sub_one {s t : State} (h : Completes s .hlt t) :
    t.memRead (t.pc - 1) = s.memRead s.pc := by
  cases h
  exact congrArg s.memRead (BitVec.add_sub_cancel s.pc 1)

/-- A completed instruction of a RUNNING state does not end in IDLE or FAULTED, and in HALTED only if it is HLT. -/
theorem Completes.runState_of_running {s t : State} {i : Instr} (h : Completes s i t) (hr : s.runState = .running) :
    t.runState = .running ∨ (i = .hlt ∧ t.runState = .halted) := by
  by_cases hi : i = .hlt
  · subst hi
    cases h
    exact .inr ⟨rfl, rfl⟩
  · exact .inl ((h.runState_eq hi).trans hr)

/-- A completed instruction keeps the invariant. -/
theorem inv_of_completes {s t : State} {i : Instr} (hs : s.Inv) (hr : s.runState = .running)
    (read : s.nextInstr = .ok i) (h : Completes s.fetch i t) : t.Inv := by
  have after := h.runState_of_running hr
  have notFaulted : t.runState ≠ .faulted := by rcases after with e | ⟨-, e⟩ <;> simp [e]
  have notIdle : t.runState ≠ .idle := by rcases after with e | ⟨-, e⟩ <;> simp [e]
  obtain ⟨code, addr, op⟩ := h.sameRecord
  obtain ⟨code₀, addr₀, op₀⟩ := hs.recordClear (by simp [hr])
  exact
    { memCanonical := h.mem_wf hs.memCanonical
      flagsLegal := h.fl_legal hs.flagsLegal
      idleIsReset := fun idle => absurd idle notIdle
      recordClear := fun _ => ⟨code.trans code₀, addr.trans addr₀, op.trans op₀⟩
      recordPlace := fun faulted => absurd faulted notFaulted
      recordCause := fun faulted => absurd faulted notFaulted
      haltedAtHlt := fun halted => by
        obtain running | ⟨rfl, -⟩ := after
        · simp [running] at halted
        · exact h.memRead_pc_sub_one.trans (opcode_of_nextInstr read).symm }

/-- Settles O36: a step stands still, completes the instruction at `pc`, or raises one of the two faults there. -/
theorem stepKeepsTheInvariant : Obligations.StepKeepsTheInvariant := by
  intro s t hs h
  obtain ⟨-, run⟩ | ⟨hr, i, read, run⟩ | ⟨hr, illegal, -, run⟩ := step_cases s
  · rwa [← Host.Outcome.next.inj (run.symm.trans h)]
  · obtain done | ⟨bad, rfl⟩ := cases_of_exec (run.symm.trans h)
    · exact inv_of_completes hs hr read done
    · rw [opcode_of_nextInstr read]
      exact inv_raise hs (.inr ⟨rfl, i, read, bad⟩)
  · rw [← Host.Outcome.next.inj (run.symm.trans h)]
    exact inv_raise hs (.inl ⟨rfl, illegal⟩)

/-- `start` in IDLE enters RUNNING (R234). -/
theorem start_of_idle {s : State} (h : s.runState = .idle) : s.start = s.setRunState .running := by
  simp only [State.start, h]

/-- The load port in IDLE writes the cell (R64). -/
theorem loadPort_of_idle {s : State} (h : s.runState = .idle) (addr data : Byte) :
    s.loadPort addr data = s.memWrite addr data := by
  simp only [State.loadPort, h]

/-- `start` keeps the invariant: the record is clear before it, and the state after it is RUNNING. -/
theorem inv_start {s : State} (hs : s.Inv) (idle : s.runState = .idle) : (s.setRunState .running).Inv where
  memCanonical := hs.memCanonical
  flagsLegal := hs.flagsLegal
  idleIsReset := fun h => by cases h
  recordClear := fun _ => hs.recordClear (by simp [idle])
  recordPlace := fun h => by cases h
  recordCause := fun h => by cases h
  haltedAtHlt := fun h => by cases h

/-- A load-port write in IDLE keeps the invariant: memory stays canonical, and nothing else changes. -/
theorem inv_load {s : State} (hs : s.Inv) (idle : s.runState = .idle) (addr data : Byte) :
    (s.memWrite addr data).Inv where
  memCanonical := State.memWrite_wf hs.memCanonical addr data
  flagsLegal := hs.flagsLegal
  idleIsReset := fun h => by rw [hs.idleIsReset idle]; rfl
  recordClear := hs.recordClear
  recordPlace := fun h => absurd (idle.symm.trans h) (by decide)
  recordCause := fun h => absurd (idle.symm.trans h) (by decide)
  haltedAtHlt := fun h => absurd (idle.symm.trans h) (by decide)

/-- Settles O37: reset leads to the reset state; the other inputs act in IDLE only, and keep the invariant there. -/
theorem hostInputsKeepTheInvariant : Obligations.HostInputsKeepTheInvariant := by
  intro s i hs
  by_cases idle : s.runState = .idle
  · cases i with
    | reset => exact invariantHoldsAtReset
    | start =>
      rw [applyInput, start_of_idle idle]
      exact inv_start hs idle
    | load addr data =>
      rw [applyInput, loadPort_of_idle idle]
      exact inv_load hs idle addr data
  · by_cases hi : i = .reset
    · subst hi
      exact invariantHoldsAtReset
    · rwa [applyInput_of_not_idle idle hi]

/-- Settles O38: by induction on how the state is reached. -/
theorem reachableStatesMeetTheInvariant : Obligations.ReachableStatesMeetTheInvariant := by
  intro s reached
  refine ⟨?invariant, exists_step s⟩
  case invariant =>
    induction reached with
    | reset => exact invariantHoldsAtReset
    | step _ run ih => exact stepKeepsTheInvariant _ _ ih run
    | input i _ ih => exact hostInputsKeepTheInvariant _ i ih

end Sys2Proof.Machine
end

section
/-! SUPPORT. The block's interface and the loader (spec/10_state.md R34 to R37, spec/70_reset_and_hazards.md R230 to
R234): the host's inputs, the status outputs, and a loaded image read back. -/

namespace Sys2Proof.Machine

/-- Every cell reads 0x00 after reset (R34). -/
theorem memRead_reset (x : Byte) : State.reset.memRead x = 0 := rfl

/-- Settles O52: the state after reset does not depend on the state before. -/
theorem resetGivesTheTableOfValues : Obligations.ResetGivesTheTableOfValues := by
  have registers : ∀ r : Reg, State.reset.reg r = if r = 7 then 0xF4 else 0 := by decide
  exact fun _ => ⟨memRead_reset, registers, rfl, rfl, rfl, rfl, rfl, rfl, rfl⟩

/-- Settles O53: `start` in IDLE, and in any other state. -/
theorem startMovesIdleToRunning : Obligations.StartMovesIdleToRunning :=
  fun _ => ⟨start_of_idle, start_of_not_idle⟩

/-- Settles O54: in IDLE the load port is a memory write, which sets one cell; elsewhere it does nothing. -/
theorem loadPortWritesOnlyInIdle : Obligations.LoadPortWritesOnlyInIdle := by
  intro s a v
  refine ⟨fun idle => ?idle, fun other => loadPort_of_not_idle other a v⟩
  case idle =>
    obtain ⟨written, others, -, rest⟩ := memoryWriteChangesOneCell s a v
    have write : applyInput (.load a v) s = s.memWrite a v := loadPort_of_idle idle a v
    rw [write]
    exact ⟨written, others, rest⟩

/-- Settles O56: one case a run state. -/
theorem statusOutputsTellTheEnd : Obligations.StatusOutputsTellTheEnd := by
  intro s
  cases hr : s.runState with
  | idle | running | halted | faulted =>
    exact ⟨by rw [State.stateOut, hr]; rfl, rfl, rfl, rfl, by simp only [State.endStatus, hr]⟩

/-- Loading in IDLE changes memory only. -/
theorem loadFrom_eq {s : State} (idle : s.runState = .idle) (a : Byte) (bytes : List Byte) :
    s.loadFrom a bytes = { s with mem := (s.loadFrom a bytes).mem } := by
  induction bytes generalizing s a with
  | nil => rfl
  | cons b rest ih =>
    rw [State.loadFrom, loadPort_of_idle idle]
    exact ih (s := s.memWrite a b) idle (a + 1)

/-- What every cell reads as after loading in IDLE no more bytes than memory has: the byte at its distance from the
start address, and beyond the last byte what it held (R232). -/
theorem memRead_loadFrom {s : State} (idle : s.runState = .idle) (a k : Byte) {bytes : List Byte}
    (hlen : bytes.length ≤ 256) : (s.loadFrom a bytes).memRead k = bytes.getD (k - a).toNat (s.memRead k) := by
  induction bytes generalizing s a with
  | nil => rfl
  | cons b rest ih =>
    rw [List.length_cons] at hlen
    rw [State.loadFrom, loadPort_of_idle idle, ih (s := s.memWrite a b) idle (a + 1) (by omega),
      State.memRead_memWrite]
    by_cases hk : k = a
    · have beyond : rest.length ≤ (k - (a + 1)).toNat := by bv_omega
      rw [List.getD_eq_default _ _ beyond, if_pos hk, hk, BitVec.sub_self]
      rfl
    · have next : (k - a).toNat = (k - (a + 1)).toNat + 1 := by bv_omega
      rw [if_neg hk, next, List.getD_cons_succ]

/-- Settles O55: loading from reset changes memory only, and puts byte `k` of the image into cell `k`. -/
theorem loadedImageStandsFromTheEntry : Obligations.LoadedImageStandsFromTheEntry := by
  refine ⟨fun image hlen => ?loaded, fun s image hlen => ?refused⟩
  case loaded =>
    have idle : State.reset.runState = .idle := rfl
    obtain ⟨m, loaded⟩ : ∃ m, State.reset.loadFrom Config.entry image = { State.reset with mem := m } :=
      ⟨_, loadFrom_eq idle Config.entry image⟩
    have cells (k : Byte) : ({ State.reset with mem := m } : State).memRead k = image.getD k.toNat 0 := by
      rw [← loaded, memRead_loadFrom idle Config.entry k hlen, Config.entry, memRead_reset, sub_zero]
    have loads : State.reset.loadImage image = .ok { State.reset with mem := m } :=
      (if_pos hlen).trans (congrArg Except.ok loaded)
    have firstInstr : ({ State.reset with mem := m, runState := .running } : State).nextInstr =
        decode (image.getD 0 0) (image.getD 1 0) (image.getD 2 0) :=
      congr (congrArg₂ decode (cells 0) (cells 1)) (cells 2)
    exact ⟨_, loads, cells, rfl, rfl, rfl, cells 0, firstInstr, exists_step _⟩
  case refused => exact if_neg (by omega)

end Sys2Proof.Machine
end

section
/-! SUPPORT. Decimal text (spec/41_load_output_halt.md R123): the digits the host prints for a byte are read back as the
byte. -/

namespace Sys2Proof.Machine.Text

/-- A decimal digit stands between `0` and `9`. -/
theorem digit_bounds {c : Char} (h : c.isDigit = true) : 48 ≤ c.toNat ∧ c.toNat ≤ 57 := by
  simpa [Char.isDigit, UInt32.le_iff_toNat_le] using h

/-- A decimal digit has the value of its place after `0`. -/
theorem digitValue_of_isDigit {c : Char} (h : c.isDigit = true) : digitValue c = some (c.toNat - 48) :=
  if_pos (digit_bounds h)

/-- Decimal digits are read as the number they write. -/
theorem readDigits_ten {cs : List Char} (h : ∀ c ∈ cs, c.isDigit = true) (acc : Nat) :
    readDigits 10 acc cs = some (Nat.ofDigitChars 10 cs acc) := by
  induction cs generalizing acc with
  | nil => rfl
  | cons c rest ih =>
    have digit : c.isDigit = true := h c List.mem_cons_self
    have small : c.toNat - 48 < 10 := by
      have := digit_bounds digit
      omega
    rw [readDigits, digitValue_of_isDigit digit, Nat.ofDigitChars_cons]
    simp only [small, if_true]
    rw [ih fun d hd => h d (List.mem_cons_of_mem c hd), Nat.mul_comm]
    rfl

/-- The characters of a number's decimal text are digits. -/
theorem isDigit_of_mem_toDigits {n : Nat} {c : Char} (h : c ∈ Nat.toDigits 10 n) : c.isDigit = true :=
  Nat.isDigit_of_mem_toDigits (by decide) (by decide) h

/-- At least one digit is read, and the number has to be a byte. -/
theorem readByte_of_ne_nil {cs : List Char} (h : cs ≠ []) (base : Nat) :
    readByte base cs = (readDigits base 0 cs).bind fun n => if n < 256 then some (BitVec.ofNat 8 n) else none := by
  cases cs with
  | nil => exact absurd rfl h
  | cons => rfl

/-- A byte is read back from its decimal digits. -/
theorem readByte_toDigits (v : Byte) : readByte 10 (Nat.toDigits 10 v.toNat) = some v := by
  rw [readByte_of_ne_nil Nat.toDigits_ne_nil, readDigits_ten fun _ => isDigit_of_mem_toDigits,
    Nat.ofDigitChars_ten_toDigits, Option.bind_some, if_pos v.isLt, BitVec.ofNat_toNat, BitVec.setWidth_eq]

/-- The decimal text of a number from 1 on does not begin with `0`. -/
theorem head?_toDigits_ne_zero {n : Nat} (h : 0 < n) : (Nat.toDigits 10 n).head? ≠ some '0' := by
  induction n using Nat.strongRecOn with
  | ind n ih =>
    by_cases small : n < 10
    · rw [Nat.toDigits_of_lt_base small]
      interval_cases n <;> decide
    · rw [Nat.toDigits_of_base_le (by decide) (not_lt.mp small), List.head?_append_of_ne_nil _ Nat.toDigits_ne_nil]
      exact ih (n / 10) (by omega) (by omega)

end Sys2Proof.Machine.Text

namespace Sys2Proof.Machine

/-- Settles O57: the digits are the number's decimal text, which is read back, and is one digit below 10. -/
theorem printedTextIsUnsignedDecimal : Obligations.PrintedTextIsUnsignedDecimal := by
  intro v
  have digits : (renderByte v).dropLast = Nat.toDigits 10 v.toNat := List.dropLast_concat
  refine ⟨List.getLast?_concat, by rw [digits]; exact Text.readByte_toDigits v, ?noLeadingZero⟩
  case noLeadingZero =>
    rw [digits, renderByte, List.head?_append_of_ne_nil _ Nat.toDigits_ne_nil]
    by_cases zero : v.toNat = 0
    · exact .inl (by rw [zero]; rfl)
    · exact .inr (Text.head?_toDigits_ne_zero (Nat.pos_of_ne_zero zero))

end Sys2Proof.Machine
end

section
/-! SUPPORT. The assembler's text (spec/30_encoding.md R81): the words of a printed line are the mnemonic and the
operands, and each word is read back. -/

namespace Sys2Proof.Machine

namespace Text

/-- A text without a cut is one piece. -/
theorem splitAtChars_of_no_cut {isCut : Char → Bool} {w : List Char} (h : ∀ c ∈ w, isCut c = false) :
    splitAtChars isCut w = [w] := by
  induction w with
  | nil => rfl
  | cons c rest ih =>
    have tail := ih fun d hd => h d (List.mem_cons_of_mem c hd)
    simp [splitAtChars, h c List.mem_cons_self, tail]

/-- A text without a cut, before a cut, is the first piece. -/
theorem splitAtChars_append_cut {isCut : Char → Bool} {w : List Char} {d : Char} (h : ∀ c ∈ w, isCut c = false)
    (hd : isCut d = true) (rest : List Char) :
    splitAtChars isCut (w ++ d :: rest) = w :: splitAtChars isCut rest := by
  induction w with
  | nil => simp [splitAtChars, hd]
  | cons c cs ih =>
    have tail := ih fun e he => h e (List.mem_cons_of_mem c he)
    simp [splitAtChars, h c List.mem_cons_self, tail]

end Text

namespace Assembly

/-- The words of a line: its pieces between separators, without the empty ones. -/
def words (line : List Char) : List (List Char) := (Text.splitAtChars isSeparator line).filter (· != [])

/-- The assembler reads a line's words, the mnemonic in capitals. -/
theorem assemble_of_words {line m : List Char} {operands : List (List Char)} (h : words line = m :: operands) :
    assemble line = assembleWords (m.map Char.toUpper :: operands) := by
  rw [words] at h
  rw [assemble, h]

/-- A text is one word: it is not empty and holds no separator. -/
def IsWord (w : List Char) : Prop := w ≠ [] ∧ ∀ c ∈ w, isSeparator c = false

/-- A word alone is the line's only one. -/
theorem words_of_isWord {w : List Char} (h : IsWord w) : words w = [w] := by
  obtain ⟨notEmpty, plain⟩ := h
  simp [words, Text.splitAtChars_of_no_cut plain, notEmpty]

/-- A word before a separator is the line's first one. -/
theorem words_append_separator {w : List Char} {d : Char} (h : IsWord w) (hd : isSeparator d = true)
    (rest : List Char) : words (w ++ d :: rest) = w :: words rest := by
  obtain ⟨notEmpty, plain⟩ := h
  simp [words, Text.splitAtChars_append_cut plain hd, notEmpty]

/-- A separator at the front is dropped. -/
theorem words_separator_cons {d : Char} (hd : isSeparator d = true) (rest : List Char) :
    words (d :: rest) = words rest := by
  simp [words, Text.splitAtChars, hd]

/-- Operands joined by a comma and a space are the line's words. -/
theorem words_operands {x : List Char} {rest : List (List Char)} (hx : IsWord x) (hrest : ∀ w ∈ rest, IsWord w) :
    words (x ++ rest.flatMap ([',', ' '] ++ ·)) = x :: rest := by
  induction rest generalizing x with
  | nil => rw [List.flatMap_nil, List.append_nil, words_of_isWord hx]
  | cons y ys ih =>
    have tail := ih (hrest y List.mem_cons_self) fun w hw => hrest w (List.mem_cons_of_mem y hw)
    rw [List.flatMap_cons, List.append_assoc, List.cons_append, words_append_separator hx rfl, List.cons_append,
      words_separator_cons rfl, List.nil_append, tail]

/-- A decimal digit is no separator. -/
theorem isSeparator_of_isDigit {c : Char} (h : c.isDigit = true) : isSeparator c = false := by
  have notSpace : c ≠ ' ' := by rintro rfl; cases h
  have notComma : c ≠ ',' := by rintro rfl; cases h
  simp [isSeparator, notSpace, notComma]

/-- A decimal number is one word. -/
theorem isWord_immText (b : Byte) : IsWord (immText b) :=
  ⟨Nat.toDigits_ne_nil, fun _ hc => isSeparator_of_isDigit (Text.isDigit_of_mem_toDigits hc)⟩

/-- A register's name is one word. -/
theorem isWord_regText (b : Byte) : IsWord (regText b) := by
  refine ⟨List.cons_ne_nil _ _, fun c hc => ?_⟩
  obtain rfl | digit := List.mem_cons.mp hc
  · rfl
  · exact (isWord_immText b).2 c digit

/-- A mnemonic is one word. -/
theorem isWord_mnemonic (i : Instr) : IsWord (mnemonic i) := by
  cases i with
  | _ => exact ⟨List.cons_ne_nil _ _, by simp [mnemonic, isSeparator]⟩

/-- Every operand is one word. -/
theorem isWord_of_mem_operandTexts {i : Instr} : ∀ w ∈ operandTexts i, IsWord w := by
  cases i with
  | hlt | ret => exact fun _ => List.not_mem_nil.elim
  | prn a | push a | pop a | call a | jmp a | jeq a | jne a => simp [operandTexts, isWord_regText]
  | ldi a imm => simp [operandTexts, isWord_regText, isWord_immText]
  | mul a b | add a b | cmp a b => simp [operandTexts, isWord_regText]

/-- The words of a printed instruction are its mnemonic and its operands. -/
theorem words_print (i : Instr) : words (print i) = mnemonic i :: operandTexts i := by
  have operands := isWord_of_mem_operandTexts (i := i)
  rw [print.eq_def]
  cases h : operandTexts i with
  | nil => exact words_of_isWord (isWord_mnemonic i)
  | cons x rest =>
    rw [h] at operands
    have joined := words_operands (operands x List.mem_cons_self) fun w hw => operands w (List.mem_cons_of_mem x hw)
    have line (operandText : List Char) :
        words (mnemonic i ++ [' '] ++ operandText) = mnemonic i :: words operandText := by
      rw [List.append_assoc]
      exact words_append_separator (isWord_mnemonic i) rfl operandText
    cases rest with
    | nil =>
      rw [List.flatMap_nil, List.append_nil] at joined
      exact (line x).trans (congrArg _ joined)
    | cons y ys =>
      exact (congrArg words (List.append_assoc _ x _)).trans ((line _).trans (congrArg _ joined))

/-- A register operand is read back from its name. -/
theorem readReg_regText {b : Byte} (h : b.toNat < 8) : readReg (regText b) = some b := by
  have digit : Nat.toDigits 10 b.toNat = [b.toNat.digitChar] := Nat.toDigits_of_lt_base (by omega)
  have read := Text.readByte_toDigits b
  have isRegister : isReg b = true := (isReg_iff b).mpr h
  rw [digit] at read
  simp [readReg, regText, digit, read, isRegister]

/-- Decimal digits are read as a decimal immediate: neither `x` nor `b` is a digit. -/
theorem readImm_of_digits {cs : List Char} (h : ∀ c ∈ cs, c.isDigit = true) : readImm cs = Text.readByte 10 cs := by
  match cs with
  | [] => rfl
  | [_] => rfl
  | z :: x :: digits =>
    have digit : x.isDigit = true := h x (by simp)
    have notX : x ≠ 'x' := by rintro rfl; cases digit
    have notB : x ≠ 'b' := by rintro rfl; cases digit
    simp [readImm, notX, notB]

/-- An immediate is read back from its decimal text. -/
theorem readImm_immText (b : Byte) : readImm (immText b) = some b :=
  (readImm_of_digits fun _ => Text.isDigit_of_mem_toDigits).trans (Text.readByte_toDigits b)

/-- The words of a well-formed instruction are read back. -/
theorem assembleWords_of_wf {i : Instr} (hw : i.wf = true) :
    assembleWords ((mnemonic i).map Char.toUpper :: operandTexts i) = some i := by
  have one {a : Byte} (good : [a].all isReg = true) : readReg (regText a) = some a :=
    readReg_regText (all_isReg_singleton.mp good)
  have two {a b : Byte} (good : [a, b].all isReg = true) :
      readReg (regText a) = some a ∧ readReg (regText b) = some b :=
    (all_isReg_pair.mp good).imp readReg_regText readReg_regText
  cases i with
  | hlt | ret => rfl
  | prn a | push a | pop a | call a | jmp a | jeq a | jne a =>
    simp only [mnemonic, operandTexts, assembleWords, one hw, Option.bind_some]
    rfl
  | ldi a imm =>
    simp only [mnemonic, operandTexts, assembleWords, one hw, readImm_immText, Option.bind_some]
    rfl
  | mul a b | add a b | cmp a b =>
    obtain ⟨readA, readB⟩ := two hw
    simp only [mnemonic, operandTexts, assembleWords, readA, readB, Option.bind_some]
    rfl

/-- Settles O58: the printed line's words are the mnemonic and the operands, and each of them is read back. -/
theorem assemblingThePrintedTextGivesTheInstruction : Obligations.AssemblingThePrintedTextGivesTheInstruction :=
  fun i hw => (assemble_of_words (words_print i)).trans (assembleWords_of_wf hw)

end Assembly

end Sys2Proof.Machine
end
